-- ==== Sys2Proof/Word.lean ====
section
/-! DEFINITION. The word types of the core: element words and command words. -/

namespace Sys2Proof

/-- One FLEN-bit element (coefficient, sample, history tap, scratch or port element; 00_scope.md R10, R14).
FLEN is 32 or 64 by the instance's FMT, so an element stands in the low FLEN bits of a 64-bit word; that the bits above are 0
in a binary32 instance is part of the invariant `State.Inv` (log 3, DESIGN CHOICE, safe). -/
abbrev Word := BitVec 64

/-- One command word, or one word of the register-read port (20_memory.md R50, R62). -/
abbrev CmdWord := BitVec 32

/-- The positive zero `+0` of either format: all bits zero (10_state.md R46). -/
def plusZero : Word := 0

end Sys2Proof
end

