-- ==== Sys2Proof/Config.lean ====
section
/-! DEFINITION. What fixes one instance of the core (00_scope.md section 3), and the free values. -/

namespace Sys2Proof

/-- FMT, the element format (00_scope.md R10). No third format can be written down (60_exceptions.md R184). -/
inductive Fmt where
  | binary32
  | binary64
  deriving DecidableEq, Repr

/-- B0_ZERO_POLICY (00_scope.md R11): what a coefficient command does when the raw b0 is a zero. -/
inductive B0ZeroPolicy where
  | propagate
  | fault
  deriving DecidableEq, Repr

/-- The parameter set of one instance (00_scope.md R8 to R11). It stands in State, where no step writes it, so that one model
covers every instance (log 1). NSB, the number of scalar sections, is fixed at 1 (R12). -/
structure Params where
  /-- N, the number of ENG lanes (R8). -/
  n : Nat
  /-- W, the hardware vector width (R9). -/
  w : Nat
  /-- FMT (R10). -/
  fmt : Fmt
  /-- B0_ZERO_POLICY (R11). -/
  policy : B0ZeroPolicy
  deriving DecidableEq, Repr

/-- The instance of `State.reset`: that of program P1 of 95_test_vectors.md, with one batch and one remainder lane
(log 2, DESIGN CHOICE, unsafe for claims about `State.reset` alone). PROPAGATE is the spec's default (R11). -/
def Config.resetParams : Params := { n := 3, w := 2, fmt := .binary32, policy := .propagate }

/-- The free values: the k-th draw of the machine. NaN signs and payloads (40_scalar_biquad.md R102; log 4) and the operand
ports after hard reset (10_state.md R47; log 5) are cut from it. It has no body, so no proof can know a value of it. -/
opaque Config.freeWord : Nat → Word

end Sys2Proof
end

