-- ==== Sys2Proof/Syntax.lean ====
section
/-! DEFINITION. The commands of the core: one constructor per row of spec/opcode_table.json (30_encoding.md R76). -/

namespace Sys2Proof

/-- One command of the core. `lane` is the unsigned LANE field of the command word (30_encoding.md R74); every other operand
is in the operand ports, not in the word (R70). -/
inductive Instr where
  /-- ENG.SETC.ALL (41_parallel_engine.md R141). -/
  | engSetcAll
  /-- ENG.SETC.LANE (41_parallel_engine.md R146). -/
  | engSetcLane (lane : Nat)
  /-- ENG.PROCESS (41_parallel_engine.md R151). -/
  | engProcess
  /-- ENG.RESET (41_parallel_engine.md R157). -/
  | engReset
  /-- SB.SETC (40_scalar_biquad.md R113). -/
  | sbSetc
  /-- SB.PROCESS (40_scalar_biquad.md R118). -/
  | sbProcess
  /-- SB.RESET (40_scalar_biquad.md R125). -/
  | sbReset
  deriving DecidableEq, Repr

end Sys2Proof
end

