-- ==== Sys2Proof/WellFormed.lean ====
section
/-! DEFINITION. Which commands have a command word. -/

namespace Sys2Proof

/-- A command is well formed when its operands fit their fields: LANE is 16 bits (30_encoding.md R71, R74). That the lane is
one of the instance's N lanes is no matter of form: the command checks it when it executes (R78; 41_parallel_engine.md R146). -/
def Instr.wf : Instr → Bool
  | .engSetcAll => true
  | .engSetcLane lane => decide (lane < 65536)
  | .engProcess => true
  | .engReset => true
  | .sbSetc => true
  | .sbProcess => true
  | .sbReset => true

end Sys2Proof
end

