-- ==== Sys2Proof/Decode.lean ====
section
/-! DEFINITION. The decoder of the command word, total on all 2^32 words, and the encoder (30_encoding.md). -/

namespace Sys2Proof

/-- Why a word encodes no command, in the order the checks run (60_exceptions.md R188). All three are IllegalCommand. -/
inductive DecodeError where
  /-- OPC is none of the seven defined values (30_encoding.md R79). -/
  | opcodeUndefined
  /-- RSV, bits [15:8], is not zero (R73). -/
  | reservedNonZero
  /-- LANE, bits [31:16], is not zero and the command is not ENG.SETC.LANE (R74). -/
  | laneNonZero
  deriving DecidableEq, Repr

/-- OPC, bits [7:0] (30_encoding.md R71). -/
def opcField (w : CmdWord) : Nat := w.toNat % 256

/-- RSV, bits [15:8] (30_encoding.md R71). -/
def rsvField (w : CmdWord) : Nat := w.toNat / 256 % 256

/-- LANE, bits [31:16], unsigned and zero-extended (30_encoding.md R71, R74, R75). -/
def laneField (w : CmdWord) : Nat := w.toNat / 65536

/-- UNIT, OPC[7:4] (30_encoding.md R72; descriptive, decoding is by the whole OPC). -/
def unitField (w : CmdWord) : Nat := w.toNat / 16 % 16

/-- FUNC, OPC[3:0] (30_encoding.md R72; descriptive). -/
def funcField (w : CmdWord) : Nat := w.toNat % 16

/-- The opcode map, OPC to command (30_encoding.md R76). -/
def opcodeMap (opc lane : Nat) : Option Instr :=
  match opc with
  | 0x01 => some .engSetcAll
  | 0x02 => some (.engSetcLane lane)
  | 0x03 => some .engProcess
  | 0x04 => some .engReset
  | 0x11 => some .sbSetc
  | 0x12 => some .sbProcess
  | 0x13 => some .sbReset
  | _ => none

/-- The decoder, its checks in the order of 30_encoding.md R78. -/
def decode (w : CmdWord) : Except DecodeError Instr :=
  match opcodeMap (opcField w) (laneField w) with
  | none => .error .opcodeUndefined
  | some i =>
    if rsvField w ≠ 0 then .error .reservedNonZero
    else if opcField w ≠ 0x02 ∧ laneField w ≠ 0 then .error .laneNonZero
    else .ok i

/-- The OPC value of a command (30_encoding.md R76). -/
def Instr.opc : Instr → Nat
  | .engSetcAll => 0x01
  | .engSetcLane _ => 0x02
  | .engProcess => 0x03
  | .engReset => 0x04
  | .sbSetc => 0x11
  | .sbProcess => 0x12
  | .sbReset => 0x13

/-- The LANE field of a command: its lane index, or 0 (30_encoding.md R74). -/
def Instr.laneOperand : Instr → Nat
  | .engSetcLane lane => lane
  | .engSetcAll | .engProcess | .engReset | .sbSetc | .sbProcess | .sbReset => 0

/-- The encoder: OPC in [7:0], RSV zero, LANE in [31:16] (30_encoding.md R71). -/
def encode (i : Instr) : CmdWord := BitVec.ofNat 32 (i.opc + 65536 * i.laneOperand)

/-- The command the decoder reads from the table's numbering of an instruction's bits: a command word is one whole 32-bit word,
bit 0 its least significant (30_encoding.md R70; 00_scope.md R14; log 22). -/
def decodeTableWord (nbits w : Nat) : Option Instr :=
  match decode (BitVec.ofNat 32 (w % 2 ^ nbits)) with
  | .ok i => some i
  | .error _ => none

end Sys2Proof
end

