-- ==== Sys2Proof/Machine/Format.lean ====
section
/-! DEFINITION. The two element formats: their widths and the layout of the IEEE 754 encoding (00_scope.md R10, R14; the layout
is the spec's general knowledge, 93 G5; log 18), and the legal parameter sets. -/

namespace Sys2Proof

/-- FLEN (00_scope.md R10). -/
def Fmt.flen : Fmt → Nat
  | .binary32 => 32
  | .binary64 => 64

/-- The number of fraction bits. -/
def Fmt.fracBits : Fmt → Nat
  | .binary32 => 23
  | .binary64 => 52

/-- The exponent bias. -/
def Fmt.bias : Fmt → Nat
  | .binary32 => 127
  | .binary64 => 1023

/-- The weight of the sign bit, bit FLEN-1 (00_scope.md R14). -/
def Fmt.signWeight (f : Fmt) : Nat := 2 ^ (f.flen - 1)

/-- The encoding of +∞: every exponent bit set, fraction zero. A larger magnitude encodes a NaN, a smaller one a finite value. -/
def Fmt.infBits (f : Fmt) : Nat := (2 * f.bias + 1) * 2 ^ f.fracBits

/-- The weight of the quiet bit, the highest fraction bit. -/
def Fmt.quietWeight (f : Fmt) : Nat := 2 ^ (f.fracBits - 1)

/-- The smallest positive value of the format is 2^(-unitExp): 2^-149 or 2^-1074. Every finite value is a whole number of these
units, so finite magnitudes are natural numbers here and the only rounding is the one a primitive makes. -/
def Fmt.unitExp (f : Fmt) : Nat := f.bias - 1 + f.fracBits

/-- `w` is a word of FLEN bits (20_memory.md R62). -/
def fitsFmt (f : Fmt) (w : Word) : Bool := decide (w.toNat < 2 ^ f.flen)

/-- The low FLEN bits of `w`. -/
def truncFmt (f : Fmt) (w : Word) : Word := BitVec.ofNat 64 (w.toNat % 2 ^ f.flen)

/-- A parameter set an instance may have: 1 ≤ N ≤ 65536 and W ≥ 1 (00_scope.md R8, R9; 60_exceptions.md R184). -/
def Params.legal (p : Params) : Bool := decide (1 ≤ p.n) && decide (p.n ≤ 65536) && decide (1 ≤ p.w)

end Sys2Proof
end

