-- ==== Sys2Proof/Machine/Float.lean ====
section
/-! DEFINITION. The IEEE 754 primitives fmul, fadd, fsub, fdiv in both formats, round to nearest with ties to even, no fusion,
no flushing (40_scalar_biquad.md R100 to R103; log 18). An operand is unpacked to its exact value, the exact result is formed on
natural numbers, and it is narrowed once. -/

namespace Sys2Proof.Machine

/-- The sign bit, bit FLEN-1 (00_scope.md R14). -/
def signOf (f : Fmt) (w : Word) : Bool := decide (w.toNat / f.signWeight % 2 = 1)

/-- The bits below the sign: the encoding of the magnitude. -/
def magBits (f : Fmt) (w : Word) : Nat := w.toNat % f.signWeight

/-- `w` is a NaN: exponent bits all set, fraction not zero. -/
def isNaN (f : Fmt) (w : Word) : Bool := decide (f.infBits < magBits f w)

/-- `w` is +∞ or -∞. -/
def isInf (f : Fmt) (w : Word) : Bool := decide (magBits f w = f.infBits)

/-- `w` is a finite value. -/
def isFinite (f : Fmt) (w : Word) : Bool := decide (magBits f w < f.infBits)

/-- `isZero(v)` is true exactly when v is +0 or -0 (00_scope.md R16). -/
def isZero (f : Fmt) (w : Word) : Bool := decide (magBits f w = 0)

/-- The value of a word: a NaN, a signed infinity, or a sign and a whole number of units of 2^(-unitExp). -/
inductive Fp where
  | nan
  | inf (neg : Bool)
  | fin (neg : Bool) (mag : Nat)
  deriving DecidableEq, Repr

/-- The magnitude that finite magnitude bits `b` encode, in units: a subnormal counts its fraction, a normal value has the hidden
bit and doubles with each exponent step. Subnormals are used at their value (40_scalar_biquad.md R101). -/
def magOf (f : Fmt) (b : Nat) : Nat :=
  if b < 2 ^ f.fracBits then b
  else (2 ^ f.fracBits + b % 2 ^ f.fracBits) * 2 ^ (b / 2 ^ f.fracBits - 1)

/-- The value a word encodes. -/
def unpack (f : Fmt) (w : Word) : Fp :=
  if f.infBits < magBits f w then .nan
  else if magBits f w = f.infBits then .inf (signOf f w)
  else .fin (signOf f w) (magOf f (magBits f w))

/-- The word with sign `neg` and magnitude bits `b`. -/
def packBits (f : Fmt) (neg : Bool) (b : Nat) : Word :=
  BitVec.ofNat 64 ((if neg then f.signWeight else 0) + b)

/-- `num / den` rounded to the nearest whole number, ties to even. -/
def divNearestEven (num den : Nat) : Nat :=
  if 2 * (num % den) < den then num / den
  else if den < 2 * (num % den) then num / den + 1
  else num / den + num / den % 2

/-- How far the spacing of the format around `num / den` units lies above one unit, as a power of two. -/
def spacingExp (f : Fmt) (num den : Nat) : Nat := Nat.log2 (num / den) - f.fracBits

/-- The magnitude bits of the format's value nearest to `num / den` units, ties to even; magnitudes that round beyond the largest
finite value become ∞ (40_scalar_biquad.md R100, R103). A fraction that rounds up to the next binade carries into the exponent. -/
def roundMag (f : Fmt) (num den : Nat) : Nat :=
  min (spacingExp f num den * 2 ^ f.fracBits + divNearestEven num (den * 2 ^ spacingExp f num den)) f.infBits

/-- The word of sign `neg` nearest to `num / den` units. -/
def roundWord (f : Fmt) (neg : Bool) (num den : Nat) : Word := packBits f neg (roundMag f num den)

/-- A quiet NaN whose sign bit and payload are those of the draw `d` (40_scalar_biquad.md R102; log 4). -/
def quietNaN (f : Fmt) (d : Word) : Word :=
  packBits f d.msb (f.infBits + f.quietWeight + d.toNat % f.quietWeight)

/-- The signed infinity. -/
def infWord (f : Fmt) (neg : Bool) : Word := packBits f neg f.infBits

/-- The signed zero. -/
def zeroWord (f : Fmt) (neg : Bool) : Word := packBits f neg 0

/-- The value with its sign changed; a NaN stays a NaN. -/
def Fp.neg : Fp → Fp
  | .nan => .nan
  | .inf s => .inf (!s)
  | .fin s m => .fin (!s) m

/-- The rounded sum. The sum of two equal magnitudes of opposite sign is +0, that of two zeros of one sign keeps the sign
(40_scalar_biquad.md R103). -/
def addFp (f : Fmt) (d : Word) : Fp → Fp → Word
  | .nan, _ => quietNaN f d
  | _, .nan => quietNaN f d
  | .inf s, .inf t => if s = t then infWord f s else quietNaN f d
  | .inf s, .fin _ _ => infWord f s
  | .fin _ _, .inf t => infWord f t
  | .fin s m, .fin t n =>
    if s = t then roundWord f s (m + n) 1
    else if m = n then zeroWord f false
    else if n < m then roundWord f s (m - n) 1
    else roundWord f t (n - m) 1

/-- The rounded product; its sign is the exclusive-or of the signs. -/
def mulFp (f : Fmt) (d : Word) : Fp → Fp → Word
  | .nan, _ => quietNaN f d
  | _, .nan => quietNaN f d
  | .inf s, .inf t => infWord f (s ^^ t)
  | .inf s, .fin t n => if n = 0 then quietNaN f d else infWord f (s ^^ t)
  | .fin s m, .inf t => if m = 0 then quietNaN f d else infWord f (s ^^ t)
  | .fin s m, .fin t n => roundWord f (s ^^ t) (m * n) (2 ^ f.unitExp)

/-- The rounded quotient; its sign is the exclusive-or of the signs. -/
def divFp (f : Fmt) (d : Word) : Fp → Fp → Word
  | .nan, _ => quietNaN f d
  | _, .nan => quietNaN f d
  | .inf _, .inf _ => quietNaN f d
  | .inf s, .fin t _ => infWord f (s ^^ t)
  | .fin s _, .inf t => zeroWord f (s ^^ t)
  | .fin s m, .fin t n =>
    if n = 0 then (if m = 0 then quietNaN f d else infWord f (s ^^ t))
    else roundWord f (s ^^ t) (m * 2 ^ f.unitExp) n

/-- `fadd(a, b)` (40_scalar_biquad.md R100); `d` is the draw a NaN result takes its sign and payload from. -/
def fadd (f : Fmt) (d a b : Word) : Word := addFp f d (unpack f a) (unpack f b)

/-- `fsub(a, b)` (40_scalar_biquad.md R100). -/
def fsub (f : Fmt) (d a b : Word) : Word := addFp f d (unpack f a) (unpack f b).neg

/-- `fmul(a, b)` (40_scalar_biquad.md R100). -/
def fmul (f : Fmt) (d a b : Word) : Word := mulFp f d (unpack f a) (unpack f b)

/-- `fdiv(a, b)` (40_scalar_biquad.md R100). -/
def fdiv (f : Fmt) (d a b : Word) : Word := divFp f d (unpack f a) (unpack f b)

end Sys2Proof.Machine
end

