-- ==== Sys2Proof/Machine/Registers.lean ====
section
/-! DEFINITION. The register files of the two blocks and the coefficient port, with their hard-reset values (10_state.md). -/

namespace Sys2Proof.Machine

/-- One normalized coefficient set (00_scope.md R19; no b0 is stored, 10_state.md R31). -/
structure Coeffs where
  a0 : Word
  a1 : Word
  a2 : Word
  b1 : Word
  b2 : Word
  deriving DecidableEq, Repr

/-- The four history taps x[n-1], x[n-2], y[n-1], y[n-2] of one section (00_scope.md R19). -/
structure Hist where
  x1 : Word
  x2 : Word
  y1 : Word
  y2 : Word
  deriving DecidableEq, Repr

/-- One raw coefficient set {a0, a1, a2, b0, b1, b2} (00_scope.md R19). -/
structure Raw where
  a0 : Word
  a1 : Word
  a2 : Word
  b0 : Word
  b1 : Word
  b2 : Word
  deriving DecidableEq, Repr

/-- SB: `sb.a0` … `sb.b2` are `k`, `sb.x1` … `sb.y2` are `h` (10_state.md R36). -/
structure Sb where
  k : Coeffs
  h : Hist
  deriving DecidableEq, Repr

/-- ENG's coefficient register files A0, A1, A2, B1, B2, entry i of each belonging to lane i (10_state.md R23, R30). -/
structure EngCoeffs where
  a0 : List Word
  a1 : List Word
  a2 : List Word
  b1 : List Word
  b2 : List Word
  deriving DecidableEq, Repr

/-- ENG's history register files X1, X2, Y1, Y2 (10_state.md R26, R30). -/
structure EngHist where
  x1 : List Word
  x2 : List Word
  y1 : List Word
  y2 : List Word
  deriving DecidableEq, Repr

/-- ENG: coefficients, history, the scratch file SCR (10_state.md R28) and the UNIFORM flag (R32). -/
structure Eng where
  k : EngCoeffs
  h : EngHist
  scr : List Word
  uniform : Bool
  deriving DecidableEq, Repr

/-- CDATA[0..5] (10_state.md R38). -/
structure Cdata where
  c0 : Word
  c1 : Word
  c2 : Word
  c3 : Word
  c4 : Word
  c5 : Word
  deriving DecidableEq, Repr

/-- Five coefficients +0 (10_state.md R46). -/
def coeffsZero : Coeffs :=
  { a0 := plusZero, a1 := plusZero, a2 := plusZero, b1 := plusZero, b2 := plusZero }

/-- Four taps +0 (10_state.md R46; 40_scalar_biquad.md R110, CLEAR). -/
def histZero : Hist := { x1 := plusZero, x2 := plusZero, y1 := plusZero, y2 := plusZero }

/-- SB after hard reset (10_state.md R36, R46). -/
def sbReset : Sb := { k := coeffsZero, h := histZero }

/-- One register file of N entries, all +0 (10_state.md R46). -/
def zeros (n : Nat) : List Word := List.replicate n plusZero

/-- ENG with N lanes after hard reset (10_state.md R46). -/
def engReset (n : Nat) : Eng :=
  { k := { a0 := zeros n, a1 := zeros n, a2 := zeros n, b1 := zeros n, b2 := zeros n }
    h := { x1 := zeros n, x2 := zeros n, y1 := zeros n, y2 := zeros n }
    scr := zeros n
    uniform := false }

/-- Draw number `d` as an FLEN-bit word (10_state.md R47: any FLEN-bit pattern). -/
def drawPort (f : Fmt) (d : Nat) : Word := truncFmt f (Config.freeWord d)

/-- CDATA after hard reset: six draws (10_state.md R47; log 5). -/
def cdataReset (f : Fmt) (d : Nat) : Cdata :=
  { c0 := drawPort f d, c1 := drawPort f (d + 1), c2 := drawPort f (d + 2), c3 := drawPort f (d + 3),
    c4 := drawPort f (d + 4), c5 := drawPort f (d + 5) }

/-- VBUF after hard reset: N draws (10_state.md R47; log 5). -/
def vbufReset (f : Fmt) (n d : Nat) : List Word := (List.range n).map fun i => drawPort f (d + i)

end Sys2Proof.Machine
end

