-- ==== Sys2Proof/Machine/State.lean ====
section
/-! DEFINITION. The state of the machine as plain data (10_state.md R20), the host's side of its ports, and the state after
hard reset. -/

namespace Sys2Proof.Machine

/-- STATUS.CAUSE (60_exceptions.md R180). The codes 4 to 15 are never written, so they have no constructor (log 23). -/
inductive Cause where
  /-- Code 0: no fault since hard reset. -/
  | none
  /-- Code 1: the decoder, for a word that encodes no command (R181). -/
  | illegalCommand
  /-- Code 2: ENG.SETC.LANE with LANE ≥ N (R182). -/
  | invalidArgument
  /-- Code 3: a coefficient command with b0 = ±0 under B0_ZERO_POLICY = FAULT (R183). -/
  | degenerateCoefficient
  deriving DecidableEq, Repr

/-- One operand port element (20_memory.md R52). -/
inductive Port where
  /-- CDATA[j]; j in 0..5 exists. -/
  | cdata (j : Nat)
  /-- SDATA. -/
  | sdata
  /-- VBUF[i]; i in 0..N-1 exists. -/
  | vbuf (i : Nat)
  deriving DecidableEq, Repr

/-- What the host can do between commands (20_memory.md R52 to R54; 30_encoding.md R82; 60_exceptions.md R191). -/
inductive HostAction where
  /-- Issue a command word on the command port. -/
  | command (w : CmdWord)
  /-- WritePort(p, v). -/
  | write (p : Port) (v : Word)
  /-- ReadPort(p). -/
  | read (p : Port)
  /-- ReadReg(k). -/
  | readReg (k : Nat)
  /-- Hard reset with the instance's own parameters (log 14). -/
  | hardReset
  deriving DecidableEq, Repr

/-- What one host read returned: an FLEN-bit element or a 32-bit register word (20_memory.md R62). -/
inductive Readout where
  | element (v : Word)
  | register (v : BitVec 32)
  deriving DecidableEq, Repr

/-- The whole machine. `eng`, `sb`, `err`, `cause`, `cdata`, `sdata`, `vbuf` are the spec's state (10_state.md R20); `params` is
the instance's parameter set (log 1); `inbox` and `readouts` are the host's side (log 7, log 9); `draws` counts the free values
drawn (log 6). -/
structure State where
  params : Params
  eng : Eng
  sb : Sb
  /-- STATUS.ERR. -/
  err : Bool
  /-- STATUS.CAUSE. -/
  cause : Cause
  cdata : Cdata
  sdata : Word
  /-- VBUF[0..N-1]. -/
  vbuf : List Word
  /-- The host actions still to come, oldest first. -/
  inbox : List HostAction
  /-- What the host's reads have returned, oldest first. -/
  readouts : List Readout
  draws : Nat
  deriving DecidableEq, Repr

/-- The faults at which the machine stops: there are none. Each fault of the spec is a NEXT state, STATUS written by the fault
primitive, and the core goes on FAULTED (60_exceptions.md R186, R187; log 10). -/
inductive Fault where
  deriving DecidableEq, Repr

/-- What the model refuses: each a configuration or a host move that the spec says does not exist. -/
inductive Refusal where
  /-- Raised by `exec`'s arm of an instruction without a meaning (none is left). Safe: the run stops. -/
  | notModelled (mnemonic : String)
  /-- Raised by `construct` and `step` for N = 0, N > 65536 or W = 0: no such instance exists (60_exceptions.md R184; log 11).
  Safe: the run stops. -/
  | constructionError
  /-- Raised by a host access to CDATA[j], j > 5, or VBUF[i], i ≥ N: it does not exist in the interface (20_memory.md R52; log 12).
  Safe: the run stops. -/
  | noSuchPort (p : Port)
  /-- Raised by a host write of a value wider than FLEN bits: there are no mixed-width accesses (20_memory.md R62; log 13).
  Safe: the run stops. -/
  | mixedWidth (p : Port)
  deriving DecidableEq, Repr

/-- The core of parameter set `p` right after hard reset, with the operand ports holding the draws `d`, `d + 1`, …
(10_state.md R46, R47; 70_reset_and_hazards.md R210). -/
def State.hardReset (p : Params) (d : Nat) : State :=
  { params := p
    eng := engReset p.n
    sb := sbReset
    err := false
    cause := .none
    cdata := cdataReset p.fmt d
    sdata := drawPort p.fmt (d + 6)
    vbuf := vbufReset p.fmt p.n (d + 7)
    inbox := []
    readouts := []
    draws := d + 7 + p.n }

/-- The machine right after reset, for the instance `Config.resetParams` (log 2): it waits for its first command
(70_reset_and_hazards.md R210). -/
def State.reset : State := State.hardReset Config.resetParams 0

end Sys2Proof.Machine
end

