-- ==== Sys2Proof/Machine/Datapath.lean ====
section
/-! DEFINITION. The three datapath functions every command uses: the normalizer NORM, the recurrence BQ and the state propagation
mux SPM (40_scalar_biquad.md sections 2 to 4). A `d` of type Nat is the number of the first free value a function may draw; each
primitive call has a draw of its own (R102; log 4). -/

namespace Sys2Proof.Machine

/-- The check of NORM: a zero raw b0 under B0_ZERO_POLICY = FAULT (40_scalar_biquad.md R104; 60_exceptions.md R183). -/
def degenerate (p : Params) (b0 : Word) : Bool :=
  match p.policy with
  | .propagate => false
  | .fault => isZero p.fmt b0

/-- The five quotients, each rounded once, draws `d` to `d + 4` (40_scalar_biquad.md R104). -/
def quotients (f : Fmt) (d : Nat) (r : Raw) : Coeffs :=
  { a0 := fdiv f (Config.freeWord d) r.a0 r.b0
    a1 := fdiv f (Config.freeWord (d + 1)) r.a1 r.b0
    a2 := fdiv f (Config.freeWord (d + 2)) r.a2 r.b0
    b1 := fdiv f (Config.freeWord (d + 3)) r.b1 r.b0
    b2 := fdiv f (Config.freeWord (d + 4)) r.b2 r.b0 }

/-- NORM: the normalized set, or DegenerateCoefficient (40_scalar_biquad.md R104). -/
def normCoeffs (p : Params) (d : Nat) (r : Raw) : Except Cause Coeffs :=
  if degenerate p r.b0 then .error .degenerateCoefficient else .ok (quotients p.fmt d r)

/-- BQ: one output sample, its nine operations in exactly this order, draws `d` to `d + 8` (40_scalar_biquad.md R106).
The signs of zero and the infinities that R108, R121, R151 and R211 derive otherwise are those these operations give (log 16,
DEDUCED). -/
def bq (f : Fmt) (d : Nat) (k : Coeffs) (h : Hist) (x : Word) : Word :=
  let t0 := fmul f (Config.freeWord d) k.a0 x
  let t1 := fmul f (Config.freeWord (d + 1)) k.a1 h.x1
  let t2 := fmul f (Config.freeWord (d + 2)) k.a2 h.x2
  let t3 := fmul f (Config.freeWord (d + 3)) k.b1 h.y1
  let t4 := fmul f (Config.freeWord (d + 4)) k.b2 h.y2
  let s1 := fadd f (Config.freeWord (d + 5)) t0 t1
  let s2 := fadd f (Config.freeWord (d + 6)) s1 t2
  let s3 := fsub f (Config.freeWord (d + 7)) s2 t3
  fsub f (Config.freeWord (d + 8)) s3 t4

/-- The select of the state propagation mux (40_scalar_biquad.md R110). -/
inductive SpmSel where
  | hold
  | shift
  | clear
  deriving DecidableEq, Repr

/-- SPM: the next history; values are moved bit for bit (40_scalar_biquad.md R110). -/
def spm (sel : SpmSel) (h : Hist) (x y : Word) : Hist :=
  match sel with
  | .hold => h
  | .shift => { x1 := x, x2 := h.x1, y1 := y, y2 := h.y1 }
  | .clear => { x1 := plusZero, x2 := plusZero, y1 := plusZero, y2 := plusZero }

/-- The select SB's mux takes under each command (40_scalar_biquad.md R111). -/
def sbSelect : Instr → SpmSel
  | .sbProcess => .shift
  | .sbReset => .clear
  | .sbSetc | .engSetcAll | .engSetcLane _ | .engProcess | .engReset => .hold

/-- The select every ENG lane's mux takes under each command (40_scalar_biquad.md R111). -/
def engSelect : Instr → SpmSel
  | .engProcess => .shift
  | .engReset => .clear
  | .engSetcAll | .engSetcLane _ | .sbSetc | .sbProcess | .sbReset => .hold

end Sys2Proof.Machine
end

