-- ==== Sys2Proof/Machine/Flags.lean ====
section
/-! DEFINITION. The flags and the two host-readable registers (10_state.md R32 to R35). No flag comes from an arithmetic result
(R41). -/

namespace Sys2Proof.Machine

/-- The 4-bit code of a cause (60_exceptions.md R180). -/
def Cause.code : Cause → Nat
  | .none => 0
  | .illegalCommand => 1
  | .invalidArgument => 2
  | .degenerateCoefficient => 3

/-- STATUS, register index 0: ERR in [0], CAUSE in [7:4], UNIFORM in [8], every other bit 0 (10_state.md R33). -/
def statusWord (s : State) : BitVec 32 :=
  BitVec.ofNat 32 (s.err.toNat + 16 * s.cause.code + 256 * s.eng.uniform.toNat)

/-- The FMT bit of CONFIG (10_state.md R34). -/
def fmtCode : Fmt → Nat
  | .binary32 => 0
  | .binary64 => 1

/-- CONFIG, register index 1: FMT in [0], N-1 in [31:16], every other bit 0 (10_state.md R34). -/
def configWord (p : Params) : BitVec 32 := BitVec.ofNat 32 (fmtCode p.fmt + 65536 * (p.n - 1))

/-- UNIFORM written by a coefficient command of ENG (10_state.md R32). -/
def setUniform (b : Bool) (s : State) : State := { s with eng := { s.eng with uniform := b } }

end Sys2Proof.Machine
end

