-- ==== Sys2Proof/Machine/Operands.lean ====
section
/-! DEFINITION. The operand ports: which elements exist, reading and writing one, and the operand forms of the commands
(20_memory.md R52; 10_state.md R38 to R40). -/

namespace Sys2Proof.Machine

/-- The element exists: j in 0..5 for CDATA, i in 0..N-1 for VBUF (20_memory.md R52). -/
def portExists (s : State) : Port → Bool
  | .cdata j => decide (j < 6)
  | .sdata => true
  | .vbuf i => decide (i < s.params.n)

/-- ReadPort(p) of an element that exists (20_memory.md R52). -/
def readPort (s : State) : Port → Word
  | .cdata 0 => s.cdata.c0
  | .cdata 1 => s.cdata.c1
  | .cdata 2 => s.cdata.c2
  | .cdata 3 => s.cdata.c3
  | .cdata 4 => s.cdata.c4
  | .cdata 5 => s.cdata.c5
  | .cdata (_ + 6) => plusZero
  | .sdata => s.sdata
  | .vbuf i => s.vbuf.getD i plusZero

/-- CDATA with element `j` written. -/
def Cdata.set (c : Cdata) (v : Word) : Nat → Cdata
  | 0 => { c with c0 := v }
  | 1 => { c with c1 := v }
  | 2 => { c with c2 := v }
  | 3 => { c with c3 := v }
  | 4 => { c with c4 := v }
  | 5 => { c with c5 := v }
  | _ + 6 => c

/-- WritePort(p, v): the written element and nothing else (20_memory.md R52, R63). -/
def writePort (s : State) (p : Port) (v : Word) : State :=
  match p with
  | .cdata j => { s with cdata := s.cdata.set v j }
  | .sdata => { s with sdata := v }
  | .vbuf i => { s with vbuf := s.vbuf.set i v }

/-- The raw coefficient set on CDATA, in the order a0, a1, a2, b0, b1, b2 (10_state.md R38). -/
def rawOperand (s : State) : Raw :=
  { a0 := readPort s (.cdata 0), a1 := readPort s (.cdata 1), a2 := readPort s (.cdata 2),
    b0 := readPort s (.cdata 3), b1 := readPort s (.cdata 4), b2 := readPort s (.cdata 5) }

/-- The input sample of SB.PROCESS (10_state.md R39). -/
def sampleOperand (s : State) : Word := readPort s .sdata

/-- Lane `i`'s input sample of ENG.PROCESS (10_state.md R40). -/
def laneSample (s : State) (i : Nat) : Word := readPort s (.vbuf i)

end Sys2Proof.Machine
end

