-- ==== Sys2Proof/Machine/Ops.lean ====
section
/-! DEFINITION. The shared operations: the fault primitive and the FAULTED condition (60_exceptions.md section 2), the
coefficient path of the SETC commands, hard reset and construction, and the register-read port. There is no return from a fault
but hard reset (R191). -/

namespace Sys2Proof.Machine

/-- What the machine answers. -/
abbrev Out := Host.Outcome State Fault Refusal

/-- `raise Fault(cause)`: ERR and CAUSE are written and no other write of the command takes effect (60_exceptions.md R186); on a
FAULTED core nothing is raised and CAUSE keeps the first cause (R187). -/
def raiseFault (c : Cause) (s : State) : State :=
  if s.err then s else { s with err := true, cause := c }

/-- A command on state `s` whose effect is the state `t`: on a FAULTED core it executes nothing (60_exceptions.md R187). -/
def unlessFaulted (s t : State) : Out := if s.err then .next s else .next t

/-- The coefficient path of the SETC commands: NORM of the raw set on CDATA, then `store` of the five quotients together, or the
fault with nothing stored (40_scalar_biquad.md R104, R113, R114). NORM has five draws. -/
def withNormalized (s : State) (store : Coeffs → State → State) : State :=
  match normCoeffs s.params s.draws (rawOperand s) with
  | .error c => raiseFault c s
  | .ok k => store k { s with draws := s.draws + 5 }

/-- `ReadReg(k)`: STATUS, CONFIG, and 0 for every other index (20_memory.md R53; 10_state.md R33 to R35). -/
def readReg (s : State) : Nat → BitVec 32
  | 0 => statusWord s
  | 1 => configWord s.params
  | _ + 2 => 0

/-- Hard reset of the instance: every state element at its reset value, STATUS cleared, the operand ports drawn afresh
(10_state.md R46, R47; 70_reset_and_hazards.md R210; log 14). What the host has still to do and what it has read stay. -/
def resetCore (s : State) : State :=
  { State.hardReset s.params s.draws with inbox := s.inbox, readouts := s.readouts }

/-- Construction of an instance: ConstructionError where the parameter set is not legal, else the core right after hard reset
(60_exceptions.md R184; 70_reset_and_hazards.md R210). -/
def construct (p : Params) (d : Nat) : Out :=
  if p.legal then .next (State.hardReset p d) else .refused .constructionError

end Sys2Proof.Machine
end

