-- ==== Sys2Proof/Machine/Engine.lean ====
section
/-! DEFINITION. The four commands of the parallel engine ENG and its partition into batches of W lanes and a scalar remainder
(41_parallel_engine.md). -/

namespace Sys2Proof.Machine

/-- Lane `i`'s coefficients. -/
def laneCoeffs (e : EngCoeffs) (i : Nat) : Coeffs :=
  { a0 := e.a0.getD i plusZero, a1 := e.a1.getD i plusZero, a2 := e.a2.getD i plusZero,
    b1 := e.b1.getD i plusZero, b2 := e.b2.getD i plusZero }

/-- Lane `i`'s history. -/
def laneHist (e : EngHist) (i : Nat) : Hist :=
  { x1 := e.x1.getD i plusZero, x2 := e.x2.getD i plusZero, y1 := e.y1.getD i plusZero, y2 := e.y2.getD i plusZero }

/-- The same five coefficients in every lane (41_parallel_engine.md R141). -/
def broadcast (n : Nat) (k : Coeffs) : EngCoeffs :=
  { a0 := List.replicate n k.a0, a1 := List.replicate n k.a1, a2 := List.replicate n k.a2,
    b1 := List.replicate n k.b1, b2 := List.replicate n k.b2 }

/-- One lane's five coefficients written, every other lane's held (41_parallel_engine.md R146). -/
def setLane (e : EngCoeffs) (i : Nat) (k : Coeffs) : EngCoeffs :=
  { a0 := e.a0.set i k.a0, a1 := e.a1.set i k.a1, a2 := e.a2.set i k.a2, b1 := e.b1.set i k.b1, b2 := e.b2.set i k.b2 }

/-- The writes of ENG.SETC.ALL: every lane, and UNIFORM 1. -/
def storeAll (k : Coeffs) (s : State) : State :=
  setUniform true { s with eng := { s.eng with k := broadcast s.params.n k } }

/-- The writes of ENG.SETC.LANE: one lane, and UNIFORM 0. -/
def storeLane (lane : Nat) (k : Coeffs) (s : State) : State :=
  setUniform false { s with eng := { s.eng with k := setLane s.eng.k lane k } }

/-- ENG.SETC.ALL (41_parallel_engine.md R141). -/
def execEngSetcAll (s : State) : Out := unlessFaulted s (withNormalized s storeAll)

/-- ENG.SETC.LANE (41_parallel_engine.md R146): the lane is checked before b0 (60_exceptions.md R188). -/
def execEngSetcLane (lane : Nat) (s : State) : Out :=
  unlessFaulted s
    (if lane < s.params.n then withNormalized s (storeLane lane) else raiseFault .invalidArgument s)

/-- NB, the number of batched lanes (41_parallel_engine.md R149). For W = 1 R149's formula makes every lane a batch of one where R162
calls every lane a remainder lane: the model takes the formula, and no result shows it (log 24, DESIGN CHOICE). -/
def batchedLanes (n w : Nat) : Nat := n - n % w

/-- The batches: NB / W groups of W consecutive lanes from lane 0 (41_parallel_engine.md R149). -/
def batches (n w : Nat) : List (List Nat) :=
  (List.range (batchedLanes n w / w)).map fun b => (List.range w).map fun j => b * w + j

/-- The remainder lanes NB .. N-1 (41_parallel_engine.md R149). -/
def remainderLanes (n w : Nat) : List Nat := (List.range (n - batchedLanes n w)).map fun j => batchedLanes n w + j

/-- One result per lane: a batch at a time by `vec`, then the remainder lane by lane by `scal`, in lane order (log 17). -/
def overLanes {α : Type} (n w : Nat) (vec : List Nat → List α) (scal : Nat → α) : List α :=
  (batches n w).flatMap vec ++ (remainderLanes n w).map scal

/-- A W-wide operation: element position by element position over the lanes `is`; no position reads another
(41_parallel_engine.md R150). -/
def vecOp (op : Nat → Word → Word → Word) (is : List Nat) (as bs : List Word) : List Word :=
  List.zipWith (fun i ab => op i ab.1 ab.2) is (as.zip bs)

/-- The number of the first draw of lane `i`: nine for each lane, in lane order, so that the schedule of the lanes does not
show in them (log 4). -/
def laneDraw (s : State) (i : Nat) : Nat := s.draws + 9 * i

/-- BQ as W-wide operations over the lanes `is` with inputs `xs`, in the operation order of 40_scalar_biquad.md R106
(41_parallel_engine.md R150). -/
def vecBq (s : State) (is : List Nat) (xs : List Word) : List Word :=
  let f := s.params.fmt
  let k := is.map (laneCoeffs s.eng.k)
  let h := is.map (laneHist s.eng.h)
  let draw := fun i j => Config.freeWord (laneDraw s i + j)
  let t0 := vecOp (fun i => fmul f (draw i 0)) is (k.map (·.a0)) xs
  let t1 := vecOp (fun i => fmul f (draw i 1)) is (k.map (·.a1)) (h.map (·.x1))
  let t2 := vecOp (fun i => fmul f (draw i 2)) is (k.map (·.a2)) (h.map (·.x2))
  let t3 := vecOp (fun i => fmul f (draw i 3)) is (k.map (·.b1)) (h.map (·.y1))
  let t4 := vecOp (fun i => fmul f (draw i 4)) is (k.map (·.b2)) (h.map (·.y2))
  let s1 := vecOp (fun i => fadd f (draw i 5)) is t0 t1
  let s2 := vecOp (fun i => fadd f (draw i 6)) is s1 t2
  let s3 := vecOp (fun i => fsub f (draw i 7)) is s2 t3
  vecOp (fun i => fsub f (draw i 8)) is s3 t4

/-- SPM as a W-wide mux (40_scalar_biquad.md R112). -/
def vecSpm (sel : SpmSel) (hs : List Hist) (xs ys : List Word) : List Hist :=
  List.zipWith (fun h xy => spm sel h xy.1 xy.2) hs (xs.zip ys)

/-- What ENG.PROCESS writes for one lane: the output, the next history, the scratch element. -/
structure LaneOut where
  y : Word
  h : Hist
  scr : Word
  deriving DecidableEq, Repr

/-- A remainder lane of ENG.PROCESS: the scalar recurrence and SPM SHIFT (41_parallel_engine.md R151). -/
def processLane (s : State) (i : Nat) : LaneOut :=
  let x := laneSample s i
  let y := bq s.params.fmt (laneDraw s i) (laneCoeffs s.eng.k i) (laneHist s.eng.h i) x
  { y := y, h := spm .shift (laneHist s.eng.h i) x y, scr := x }

/-- A batch of ENG.PROCESS: W-wide reads, arithmetic and SPM SHIFT (41_parallel_engine.md R149 to R151). -/
def processBatch (s : State) (is : List Nat) : List LaneOut :=
  let xs := is.map (laneSample s)
  let ys := vecBq s is xs
  let hs := vecSpm .shift (is.map (laneHist s.eng.h)) xs ys
  List.zipWith (fun x yh => { y := yh.1, h := yh.2, scr := x }) xs (ys.zip hs)

/-- ENG's history files from one history per lane. -/
def histFiles (hs : List Hist) : EngHist :=
  { x1 := hs.map (·.x1), x2 := hs.map (·.x2), y1 := hs.map (·.y1), y2 := hs.map (·.y2) }

/-- ENG.PROCESS (41_parallel_engine.md R151): every VBUF element is read before any is written. -/
def execEngProcess (s : State) : Out :=
  let outs := overLanes s.params.n s.params.w (processBatch s) (processLane s)
  unlessFaulted s
    { s with
      eng := { s.eng with h := histFiles (outs.map (·.h)), scr := outs.map (·.scr) }
      vbuf := outs.map (·.y)
      draws := s.draws + 9 * s.params.n }

/-- A remainder lane of ENG.RESET: SPM CLEAR (41_parallel_engine.md R157). -/
def clearLane (s : State) (i : Nat) : Hist := spm .clear (laneHist s.eng.h i) plusZero plusZero

/-- A batch of ENG.RESET: SPM CLEAR, W wide (41_parallel_engine.md R160). -/
def clearBatch (s : State) (is : List Nat) : List Hist :=
  vecSpm .clear (is.map (laneHist s.eng.h)) (is.map fun _ => plusZero) (is.map fun _ => plusZero)

/-- ENG.RESET (41_parallel_engine.md R157), in the partition of ENG.PROCESS (R160). -/
def execEngReset (s : State) : Out :=
  let hs := overLanes s.params.n s.params.w (clearBatch s) (clearLane s)
  let scr := overLanes s.params.n s.params.w (fun is => is.map fun _ => plusZero) (fun _ => plusZero)
  unlessFaulted s { s with eng := { s.eng with h := histFiles hs, scr := scr } }

end Sys2Proof.Machine
end

