-- ==== Sys2Proof/Machine/Scalar.lean ====
section
/-! DEFINITION. The three commands of the scalar section SB (40_scalar_biquad.md section 5). -/

namespace Sys2Proof.Machine

/-- The five coefficient registers of SB written together; the history is held (40_scalar_biquad.md R113, R114). -/
def storeSb (k : Coeffs) (s : State) : State := { s with sb := { s.sb with k := k } }

/-- SB.SETC (40_scalar_biquad.md R113). -/
def execSbSetc (s : State) : Out := unlessFaulted s (withNormalized s storeSb)

/-- SB.PROCESS (40_scalar_biquad.md R118): SDATA is read before it is written. BQ has nine draws. -/
def execSbProcess (s : State) : Out :=
  let x := sampleOperand s
  let y := bq s.params.fmt s.draws s.sb.k s.sb.h x
  unlessFaulted s
    { writePort s .sdata y with
      sb := { s.sb with h := spm .shift s.sb.h x y }
      draws := s.draws + 9 }

/-- SB.RESET (40_scalar_biquad.md R125). -/
def execSbReset (s : State) : Out :=
  unlessFaulted s { s with sb := { s.sb with h := spm .clear s.sb.h plusZero plusZero } }

end Sys2Proof.Machine
end

