-- ==== Sys2Proof/Machine/Dispatch.lean ====
section
/-! DEFINITION. The dispatch of the seven commands, one arm each. -/

namespace Sys2Proof.Machine

/-- The effect of one command (30_encoding.md R76). -/
def exec (i : Instr) (s : State) : Host.Outcome State Fault Refusal :=
  match i with
  | .engSetcAll => Sys2Proof.Machine.execEngSetcAll s
  | .engSetcLane lane => Sys2Proof.Machine.execEngSetcLane lane s
  | .engProcess => Sys2Proof.Machine.execEngProcess s
  | .engReset => Sys2Proof.Machine.execEngReset s
  | .sbSetc => Sys2Proof.Machine.execSbSetc s
  | .sbProcess => Sys2Proof.Machine.execSbProcess s
  | .sbReset => Sys2Proof.Machine.execSbReset s

end Sys2Proof.Machine
end

