-- ==== Sys2Proof/Machine/HostPort.lean ====
section
/-! DEFINITION. The host's moves: a command word on the command port, port writes and reads, register reads, hard reset
(20_memory.md sections 1 and 2). Each is one atomic step (R54, R58). -/

namespace Sys2Proof.Machine

/-- The command port (30_encoding.md R78; 60_exceptions.md R188): a FAULTED core consumes the word and does not decode it; a word
that encodes no command raises IllegalCommand; any other word executes its command. -/
def issueCommand (w : CmdWord) (s : State) : Out :=
  if s.err then .next s
  else
    match decode w with
    | .ok i => exec i s
    | .error _ => .next (raiseFault .illegalCommand s)

/-- A host WritePort (20_memory.md R52, R62); it works on a FAULTED core too (60_exceptions.md R187). -/
def hostWrite (p : Port) (v : Word) (s : State) : Out :=
  if portExists s p then
    if fitsFmt s.params.fmt v then .next (writePort s p v) else .refused (.mixedWidth p)
  else .refused (.noSuchPort p)

/-- The value of a host read goes to the host and to nothing else (20_memory.md R63; log 9). -/
def record (r : Readout) (s : State) : State := { s with readouts := s.readouts ++ [r] }

/-- A host ReadPort (20_memory.md R52). -/
def hostRead (p : Port) (s : State) : Out :=
  if portExists s p then .next (record (.element (readPort s p)) s) else .refused (.noSuchPort p)

/-- A host ReadReg (20_memory.md R53). -/
def hostReadReg (k : Nat) (s : State) : Out := .next (record (.register (readReg s k)) s)

/-- One action of the host. -/
def perform (a : HostAction) (s : State) : Out :=
  match a with
  | .command w => issueCommand w s
  | .write p v => hostWrite p v s
  | .read p => hostRead p s
  | .readReg k => hostReadReg k s
  | .hardReset => .next (resetCore s)

/-- The host's next action is taken from its inbox and performed; with none to come the core idles and keeps its state
(60_exceptions.md R198; log 8). -/
def serveHost (s : State) : Out :=
  match s.inbox with
  | [] => .next s
  | a :: rest => perform a { s with inbox := rest }

/-- `s` with the command word `w` as the host's very next action (log 7). -/
def pushCommand (w : CmdWord) (s : State) : State := { s with inbox := .command w :: s.inbox }

end Sys2Proof.Machine
end

