-- ==== Sys2Proof/Machine/Step.lean ====
section
/-! DEFINITION. One step of the machine: one action of the host, performed atomically (20_memory.md R54). -/

namespace Sys2Proof.Machine

/-- A configuration that is not legal has no step (60_exceptions.md R184; log 11); any other serves the host's next action. -/
def step (s : State) : Host.Outcome State Fault Refusal :=
  if s.params.legal then serveHost s else .refused .constructionError

/-- `s` with the command whose bits are `w`, in the opcode table's numbering, as the host's very next action: the core fetches
nothing (20_memory.md R65), its commands come over the command port (log 7, log 22). -/
def State.withFetchWord (s : State) (nbits w : Nat) : State := pushCommand (BitVec.ofNat 32 (w % 2 ^ nbits)) s

end Sys2Proof.Machine
end

