-- ==== Sys2Proof/Machine/Assembler.lean ====
section
/-! DEFINITION. The assembler text of 30_encoding.md: lines, value literals and the five pseudo-instructions, down to the host
actions they stand for (R82 to R84; log 20). The machine does not see the text: a line is only a way to write host actions. -/

namespace Sys2Proof.Machine

/-- A line that is one command or one host action (30_encoding.md R82). -/
inductive PlainLine where
  | command (i : Instr)
  | wrCdata (r : Raw)
  | wrSdata (v : Word)
  | wrVbuf (vs : List Word)
  | rdSdata
  | rdVbuf
  | rdReg (k : Nat)
  deriving DecidableEq, Repr

/-- A line of assembler text: a plain line or a pseudo-instruction (30_encoding.md R82, R84). -/
inductive AsmLine where
  | plain (l : PlainLine)
  /-- `SETC.ALL` with its six values. -/
  | setcAll (r : Raw)
  /-- `SETC.LANE` with its lane and its six values. -/
  | setcLane (lane : Nat) (r : Raw)
  /-- `FILT` with its N values. -/
  | filt (vs : List Word)
  /-- `SFILT` with its value. -/
  | sfilt (v : Word)
  /-- `SSETC` with its six values. -/
  | ssetc (r : Raw)
  deriving DecidableEq, Repr

/-- The expansion of a pseudo-instruction (30_encoding.md R84). -/
def AsmLine.expand : AsmLine → List PlainLine
  | .plain l => [l]
  | .setcAll r => [.wrCdata r, .command .engSetcAll]
  | .setcLane lane r => [.wrCdata r, .command (.engSetcLane lane)]
  | .filt vs => [.wrVbuf vs, .command .engProcess, .rdVbuf]
  | .sfilt v => [.wrSdata v, .command .sbProcess, .rdSdata]
  | .ssetc r => [.wrCdata r, .command .sbSetc]

/-- The host actions of a plain line on an instance of `n` lanes: a write or read of a whole port goes element by element, in
element order (30_encoding.md R82; 20_memory.md R52). -/
def PlainLine.actions (n : Nat) : PlainLine → List HostAction
  | .command i => [.command (encode i)]
  | .wrCdata r =>
    [.write (.cdata 0) r.a0, .write (.cdata 1) r.a1, .write (.cdata 2) r.a2, .write (.cdata 3) r.b0,
      .write (.cdata 4) r.b1, .write (.cdata 5) r.b2]
  | .wrSdata v => [.write .sdata v]
  | .wrVbuf vs => (List.range vs.length).map fun i => .write (.vbuf i) (vs.getD i plusZero)
  | .rdSdata => [.read .sdata]
  | .rdVbuf => (List.range n).map fun i => .read (.vbuf i)
  | .rdReg k => [.readReg k]

/-- The host actions of any line: those of its expansion, and no other meaning (30_encoding.md R84). -/
def AsmLine.actions (n : Nat) (l : AsmLine) : List HostAction := l.expand.flatMap (PlainLine.actions n)

/-! ### The text -/

/-- A decimal digit's value. -/
def decDigit (c : Char) : Option Nat := if 48 ≤ c.toNat ∧ c.toNat ≤ 57 then some (c.toNat - 48) else none

/-- A hexadecimal digit's value, in either case. -/
def hexDigit (c : Char) : Option Nat :=
  if 48 ≤ c.toNat ∧ c.toNat ≤ 57 then some (c.toNat - 48)
  else if 65 ≤ c.toNat ∧ c.toNat ≤ 70 then some (c.toNat - 55)
  else if 97 ≤ c.toNat ∧ c.toNat ≤ 102 then some (c.toNat - 87)
  else none

/-- The number digits in base `base` write after the number `acc`. -/
def digitsFrom (digit : Char → Option Nat) (base : Nat) : List Char → Nat → Option Nat
  | [], acc => some acc
  | c :: cs, acc =>
    match digit c with
    | none => none
    | some d => digitsFrom digit base cs (acc * base + d)

/-- The number at least one digit writes. -/
def digits (digit : Char → Option Nat) (base : Nat) (cs : List Char) : Option Nat :=
  if cs.isEmpty then none else digitsFrom digit base cs 0

/-- An integer, decimal or `0x` hexadecimal (30_encoding.md R82). -/
def parseNat : List Char → Option Nat
  | '0' :: 'x' :: cs => digits hexDigit 16 cs
  | cs => digits decDigit 10 cs

/-- An unsigned decimal number, its digits and how many of them stand after the point. -/
def parseDecimal (cs : List Char) : Option (Nat × Nat) :=
  let whole := cs.takeWhile (· ≠ '.')
  match cs.dropWhile (· ≠ '.') with
  | [] => (digits decDigit 10 whole).map fun v => (v, 0)
  | _ :: frac => if frac.isEmpty then none else (digits decDigit 10 (whole ++ frac)).map fun v => (v, frac.length)

/-- The format's value nearest to a decimal number, ties to even (30_encoding.md R83). A magnitude that rounds beyond the largest
finite value becomes the infinity of its sign, as a primitive's result would (40_scalar_biquad.md R103): R83 does not say what such
a literal denotes, this is the model's choice (log 20, DESIGN CHOICE). A negative literal that rounds to zero, or is written with
zeros alone, keeps its sign and is -0: R83 names only `-0.0`, the rest is the model's choice (log 20, DESIGN CHOICE). -/
def decimalWord (f : Fmt) (neg : Bool) (d : Nat × Nat) : Word := roundWord f neg (d.1 * 2 ^ f.unitExp) (10 ^ d.2)

/-- A value literal in an element position (30_encoding.md R83). -/
def parseValue (f : Fmt) : List Char → Option Word
  | '0' :: 'x' :: cs =>
    if cs.length = f.flen / 4 then (digits hexDigit 16 cs).map (BitVec.ofNat 64) else none
  | ['n', 'a', 'n'] => some (packBits f false (f.infBits + f.quietWeight))
  | ['+', 'i', 'n', 'f'] => some (infWord f false)
  | ['-', 'i', 'n', 'f'] => some (infWord f true)
  | '-' :: cs => (parseDecimal cs).map (decimalWord f true)
  | cs => (parseDecimal cs).map (decimalWord f false)

/-- The pieces between commas. -/
def splitCommas : List Char → List (List Char)
  | [] => [[]]
  | c :: cs =>
    if c = ',' then [] :: splitCommas cs
    else
      match splitCommas cs with
      | [] => [[c]]
      | w :: ws => (c :: w) :: ws

/-- Every literal of a list, or nothing if one is no literal. -/
def parseValues (f : Fmt) : List (List Char) → Option (List Word)
  | [] => some []
  | w :: ws =>
    match parseValue f w, parseValues f ws with
    | some v, some vs => some (v :: vs)
    | _, _ => none

/-- The values between an opening and a closing brace (code points 123 and 125). -/
def parseBraced (f : Fmt) (cs : List Char) : Option (List Word) :=
  match cs, cs.getLast? with
  | o :: _, some c => if o.toNat = 123 ∧ c.toNat = 125 then parseValues f (splitCommas (cs.drop 1).dropLast) else none
  | _, _ => none

/-- Six braced values as a raw set, in the order of CDATA (30_encoding.md R82). -/
def parseRaw (f : Fmt) (cs : List Char) : Option Raw :=
  match parseBraced f cs with
  | some [a0, a1, a2, b0, b1, b2] => some { a0 := a0, a1 := a1, a2 := a2, b0 := b0, b1 := b1, b2 := b2 }
  | _ => none

/-- N braced values, for VBUF[0..N-1] (30_encoding.md R82). -/
def parseVector (p : Params) (cs : List Char) : Option (List Word) :=
  match parseBraced p.fmt cs with
  | some vs => if vs.length = p.n then some vs else none
  | none => none

/-- A lane index that the LANE field can hold (30_encoding.md R74, R82). -/
def parseLane (cs : List Char) : Option Nat :=
  match parseNat cs with
  | some lane => if lane < 65536 then some lane else none
  | none => none

/-- The commands without an operand, by their mnemonics (30_encoding.md R76). -/
def plainMnemonics : List (List Char × Instr) :=
  [("ENG.SETC.ALL".toList, .engSetcAll), ("ENG.PROCESS".toList, .engProcess), ("ENG.RESET".toList, .engReset),
    ("SB.SETC".toList, .sbSetc), ("SB.PROCESS".toList, .sbProcess), ("SB.RESET".toList, .sbReset)]

/-- A line of mnemonic `m` with operand `a` and, after its first comma, operand `b`; blanks are gone from the operands. `all` is
the whole operand text. -/
def parseOperands (p : Params) (m all a b : List Char) : Option AsmLine :=
  if m = "ENG.SETC.LANE".toList then (parseLane all).map fun lane => .plain (.command (.engSetcLane lane))
  else if m = "WR".toList then
    if a = "CDATA".toList then (parseRaw p.fmt b).map fun r => .plain (.wrCdata r)
    else if a = "SDATA".toList then (parseValue p.fmt b).map fun v => .plain (.wrSdata v)
    else if a = "VBUF".toList then (parseVector p b).map fun vs => .plain (.wrVbuf vs)
    else none
  else if m = "RD".toList then
    if all = "SDATA".toList then some (.plain .rdSdata)
    else if all = "VBUF".toList then some (.plain .rdVbuf)
    else none
  else if m = "RDREG".toList then (parseNat all).map fun k => .plain (.rdReg k)
  else if m = "SETC.ALL".toList then (parseRaw p.fmt all).map .setcAll
  else if m = "SETC.LANE".toList then
    match parseLane a, parseRaw p.fmt b with
    | some lane, some r => some (.setcLane lane r)
    | _, _ => none
  else if m = "FILT".toList then (parseVector p all).map .filt
  else if m = "SFILT".toList then (parseValue p.fmt all).map .sfilt
  else if m = "SSETC".toList then (parseRaw p.fmt all).map .ssetc
  else if all.isEmpty then
    match plainMnemonics.find? fun row => row.1 = m with
    | some row => some (.plain (.command row.2))
    | none => none
  else none

/-- One line of text: what stands after `;` is a comment, and a line of blanks or comment alone is no line
(30_encoding.md R82). R82 is silent on blanks: that those before the mnemonic are dropped, that the mnemonic ends at the first blank
after it, and that every blank in the operand text is removed, are the model's choice (log 20, DESIGN CHOICE). -/
def parseLine (p : Params) (text : List Char) : Option (List AsmLine) :=
  let body := (text.takeWhile (· ≠ ';')).dropWhile (· = ' ')
  let m := body.takeWhile (· ≠ ' ')
  let all := (body.dropWhile (· ≠ ' ')).filter (· ≠ ' ')
  if body.isEmpty then some []
  else (parseOperands p m all (all.takeWhile (· ≠ ',')) ((all.dropWhile (· ≠ ',')).drop 1)).map fun l => [l]

/-- A program, line after line, as the host actions it stands for; nothing if a line is not one of the forms above. -/
def assemble (p : Params) : List (List Char) → Option (List HostAction)
  | [] => some []
  | text :: rest =>
    match parseLine p text, assemble p rest with
    | some ls, some as => some (ls.flatMap (AsmLine.actions p.n) ++ as)
    | _, _ => none

end Sys2Proof.Machine
end

