-- ==== Sys2Proof/Safety.lean ====
section
/-! DEFINITION. The terms claims are stated in: the invariant of the machine, agreement of two values up to the sign and payload of
a NaN, and which host actions raise no fault. -/

namespace Sys2Proof.Machine

/-- Every word of a register file has FLEN bits (20_memory.md R62). -/
def fitsAll (f : Fmt) (l : List Word) : Bool := l.all (fitsFmt f)

/-- All ten files of ENG and VBUF have exactly N entries (10_state.md R30, R40). -/
abbrev State.LanesFull (s : State) : Prop :=
  (s.eng.k.a0.length = s.params.n ∧ s.eng.k.a1.length = s.params.n ∧ s.eng.k.a2.length = s.params.n ∧
    s.eng.k.b1.length = s.params.n ∧ s.eng.k.b2.length = s.params.n) ∧
  (s.eng.h.x1.length = s.params.n ∧ s.eng.h.x2.length = s.params.n ∧ s.eng.h.y1.length = s.params.n ∧
    s.eng.h.y2.length = s.params.n) ∧
  s.eng.scr.length = s.params.n ∧ s.vbuf.length = s.params.n

/-- Five coefficients of FLEN bits. -/
def coeffsFit (f : Fmt) (k : Coeffs) : Bool :=
  fitsFmt f k.a0 && fitsFmt f k.a1 && fitsFmt f k.a2 && fitsFmt f k.b1 && fitsFmt f k.b2

/-- Four taps of FLEN bits. -/
def histFits (f : Fmt) (h : Hist) : Bool := fitsFmt f h.x1 && fitsFmt f h.x2 && fitsFmt f h.y1 && fitsFmt f h.y2

/-- Six elements of FLEN bits. -/
def cdataFits (f : Fmt) (c : Cdata) : Bool :=
  fitsFmt f c.c0 && fitsFmt f c.c1 && fitsFmt f c.c2 && fitsFmt f c.c3 && fitsFmt f c.c4 && fitsFmt f c.c5

/-- ENG's files hold FLEN-bit words. -/
def engFits (f : Fmt) (e : Eng) : Bool :=
  (fitsAll f e.k.a0 && fitsAll f e.k.a1 && fitsAll f e.k.a2 && fitsAll f e.k.b1 && fitsAll f e.k.b2) &&
  (fitsAll f e.h.x1 && fitsAll f e.h.x2 && fitsAll f e.h.y1 && fitsAll f e.h.y2) && fitsAll f e.scr

/-- Every element of the machine has FLEN bits: a binary32 instance never carries a wider one (20_memory.md R62). -/
abbrev State.WordsFit (s : State) : Prop :=
  engFits s.params.fmt s.eng = true ∧ coeffsFit s.params.fmt s.sb.k = true ∧ histFits s.params.fmt s.sb.h = true ∧
  cdataFits s.params.fmt s.cdata = true ∧ fitsFmt s.params.fmt s.sdata = true ∧ fitsAll s.params.fmt s.vbuf = true

/-- CAUSE is 0 exactly while ERR is 0 (10_state.md R33). -/
abbrev State.StatusAgrees (s : State) : Prop := s.err = false ↔ s.cause = .none

/-- The invariant: a legal parameter set, full register files, FLEN-bit words, STATUS in agreement with itself, and SCR = X1
(10_state.md R29). -/
abbrev State.Inv (s : State) : Prop :=
  s.params.legal = true ∧ s.LanesFull ∧ s.WordsFit ∧ s.StatusAgrees ∧ s.eng.scr = s.eng.h.x1

/-- Bit-identical, the sign and payload of a NaN excepted (40_scalar_biquad.md R102, R107). -/
def sameValue (f : Fmt) (a b : Word) : Bool := (a == b) || (isNaN f a && isNaN f b)

/-- Two coefficient sets agree, NaN sign and payload excepted. -/
def sameCoeffs (f : Fmt) (k l : Coeffs) : Bool :=
  sameValue f k.a0 l.a0 && sameValue f k.a1 l.a1 && sameValue f k.a2 l.a2 && sameValue f k.b1 l.b1 && sameValue f k.b2 l.b2

/-- Two histories agree, NaN sign and payload excepted. -/
def sameHist (f : Fmt) (g h : Hist) : Bool :=
  sameValue f g.x1 h.x1 && sameValue f g.x2 h.x2 && sameValue f g.y1 h.y1 && sameValue f g.y2 h.y2

/-- ENG's lane `i` and SB hold the same coefficients and history, NaN sign and payload excepted (41_parallel_engine.md R165). -/
abbrev State.LaneMatchesSb (s : State) (i : Nat) : Prop :=
  sameCoeffs s.params.fmt (laneCoeffs s.eng.k i) s.sb.k = true ∧ sameHist s.params.fmt (laneHist s.eng.h i) s.sb.h = true

/-- The command passes its own checks in `s`: LANE < N, and no zero b0 under FAULT (60_exceptions.md R182, R183). -/
def passesChecks (i : Instr) (s : State) : Bool :=
  match i with
  | .engSetcLane lane => decide (lane < s.params.n) && !degenerate s.params s.cdata.c3
  | .engSetcAll | .sbSetc => !degenerate s.params s.cdata.c3
  | .engProcess | .engReset | .sbProcess | .sbReset => true

/-- The host's next action raises no fault in `s`: it is no command, or a word of a command that passes its checks
(60_exceptions.md R200). -/
def cleanNext (s : State) : Bool :=
  match s.inbox with
  | .command w :: _ =>
    match decode w with
    | .ok i => passesChecks i s
    | .error _ => false
  | _ => true

/-- The next `n` actions of the host raise no fault, each judged in the state it meets. -/
def cleanRun : Nat → State → Prop
  | 0, _ => True
  | n + 1, s => cleanNext s = true ∧ ∀ t, step s = .next t → cleanRun n t

end Sys2Proof.Machine
end

