-- ==== Sys2Proof/Certificates/Slice0/Obligations.lean ====
section
/-! DEFINITION. The statements for the provers. -/

open Sys2Proof Sys2Proof.Machine

/-! ### Encoding (30_encoding.md) -/

/-- 30_encoding.md R85: the words of the examples, written out, are the commands named there, and the illegal examples are none. -/
def Obligations.ExampleWordsDecodeAsListed : Prop :=
  decode 0x00000001 = .ok .engSetcAll ∧ decode 0x00000002 = .ok (.engSetcLane 0) ∧
  decode 0x00010002 = .ok (.engSetcLane 1) ∧ decode 0x00020002 = .ok (.engSetcLane 2) ∧
  decode 0xFFFF0002 = .ok (.engSetcLane 65535) ∧ decode 0x00000003 = .ok .engProcess ∧
  decode 0x00000004 = .ok .engReset ∧ decode 0x00000011 = .ok .sbSetc ∧ decode 0x00000012 = .ok .sbProcess ∧
  decode 0x00000013 = .ok .sbReset ∧
  (∀ w ∈ [(0x00000000 : CmdWord), 0x00000104, 0x00010003, 0x00000021], ∃ e, decode w = .error e)

/-- 30_encoding.md R71, R76: every well-formed command, with every lane its field can hold, decodes from its own encoding. -/
def Obligations.DecodeInvertsEncode : Prop := ∀ i : Instr, i.wf = true → decode (encode i) = .ok i

/-- 30_encoding.md R71, R80, R86: a word that decodes is well formed and is the encoding of what it decodes to, so no bit of it is
ignored and no two words are one command. -/
def Obligations.EncodeInvertsDecode : Prop :=
  ∀ (w : CmdWord) (i : Instr), decode w = .ok i → i.wf = true ∧ encode i = w

/-- 30_encoding.md R77: the match and mask of each command, row by row; the pairs are disjoint. -/
def Obligations.MatchAndMaskOfEachCommand : Prop :=
  ∀ w : CmdWord,
    (decode w = .ok .engSetcAll ↔ w &&& 0xFFFFFFFF = 0x00000001) ∧
    ((∃ lane, decode w = .ok (.engSetcLane lane)) ↔ w &&& 0x0000FFFF = 0x00000002) ∧
    (decode w = .ok .engProcess ↔ w &&& 0xFFFFFFFF = 0x00000003) ∧
    (decode w = .ok .engReset ↔ w &&& 0xFFFFFFFF = 0x00000004) ∧
    (decode w = .ok .sbSetc ↔ w &&& 0xFFFFFFFF = 0x00000011) ∧
    (decode w = .ok .sbProcess ↔ w &&& 0xFFFFFFFF = 0x00000012) ∧
    (decode w = .ok .sbReset ↔ w &&& 0xFFFFFFFF = 0x00000013) ∧
    (∀ lane, decode w = .ok (.engSetcLane lane) → lane = (w >>> 16).toNat) ∧
    [w &&& 0xFFFFFFFF == 0x00000001, w &&& 0x0000FFFF == 0x00000002, w &&& 0xFFFFFFFF == 0x00000003,
      w &&& 0xFFFFFFFF == 0x00000004, w &&& 0xFFFFFFFF == 0x00000011, w &&& 0xFFFFFFFF == 0x00000012,
      w &&& 0xFFFFFFFF == 0x00000013].count true ≤ 1

/-- 30_encoding.md R79: the 249 undefined OPC values are illegal and change only STATUS. -/
def Obligations.UndefinedOpcodesAreIllegal : Prop :=
  (∀ (w : CmdWord) (s : State), opcField w ∉ [0x01, 0x02, 0x03, 0x04, 0x11, 0x12, 0x13] → s.err = false →
    issueCommand w s = .next { s with err := true, cause := .illegalCommand }) ∧
  ((List.range 256).filter fun opc => opc ∉ [0x01, 0x02, 0x03, 0x04, 0x11, 0x12, 0x13]).length = 249 ∧
  (∀ w : CmdWord, 2 ≤ unitField w → opcField w ∉ [0x01, 0x02, 0x03, 0x04, 0x11, 0x12, 0x13])

/-- 30_encoding.md R73, R80; 60_exceptions.md R181: which words encode no command, and that only STATUS is written for one. -/
def Obligations.IllegalCommandExactly : Prop :=
  ∀ w : CmdWord,
    ((∃ e, decode w = .error e) ↔
      opcField w ∉ [0x01, 0x02, 0x03, 0x04, 0x11, 0x12, 0x13] ∨ rsvField w ≠ 0 ∨ (opcField w ≠ 0x02 ∧ laneField w ≠ 0)) ∧
    ((∃ e, decode w = .error e) → ∀ s : State, s.err = false →
      issueCommand w s = .next { s with err := true, cause := .illegalCommand })

/-! ### The step (20_memory.md) -/

/-- 20_memory.md R54, 30_encoding.md R78: when the host's next action is a word that decodes to a command, the step is that
command on the state with the action taken; and so is the step after `withFetchWord`. -/
def Obligations.StepRunsTheDecodedCommand : Prop :=
  (∀ (s : State) (w : CmdWord) (rest : List HostAction) (i : Instr), s.params.legal = true → s.inbox = .command w :: rest →
    decode w = .ok i → step s = exec i { s with inbox := rest }) ∧
  (∀ (s : State) (w : Nat) (i : Instr), s.params.legal = true → decodeTableWord 32 w = some i →
    step (s.withFetchWord 32 w) = exec i s)

/-- 60_exceptions.md R184: a configuration with N = 0, N > 65536 or W = 0 has no instance and no step; any other is constructed;
FMT is one of the two formats. -/
def Obligations.IllegalConfigurationIsRefused : Prop :=
  (∀ p : Params, (p.n = 0 ∨ 65536 < p.n ∨ p.w = 0) →
    (∀ d, construct p d = .refused .constructionError) ∧ ∀ s : State, s.params = p → step s = .refused .constructionError) ∧
  (∀ p : Params, 1 ≤ p.n → p.n ≤ 65536 → 1 ≤ p.w → ∀ d, construct p d = .next (State.hardReset p d)) ∧
  (∀ f : Fmt, f = .binary32 ∨ f = .binary64)

/-- The model's own choices (log 7, log 8, log 12, log 13): with no action to come the core idles; a port that does not exist and a
value wider than FLEN bits are refused. -/
def Obligations.IdleAndRefusedHostMoves : Prop :=
  (∀ s : State, s.params.legal = true → s.inbox = [] → step s = .next s) ∧
  (∀ (s : State) (p : Port) (v : Word) (rest : List HostAction), s.params.legal = true → portExists s p = false →
    s.inbox = .write p v :: rest ∨ s.inbox = .read p :: rest → step s = .refused (.noSuchPort p)) ∧
  (∀ (s : State) (p : Port) (v : Word) (rest : List HostAction), s.params.legal = true → portExists s p = true →
    2 ^ s.params.fmt.flen ≤ v.toNat → s.inbox = .write p v :: rest → step s = .refused (.mixedWidth p))

/-- 20_memory.md R53, 10_state.md R35: ReadReg returns STATUS, CONFIG or 0 and changes no state; what it returned goes to the
host's `readouts` (log 9). -/
def Obligations.RegisterReadsReturnStatusConfigOrZero : Prop :=
  ∀ (s : State) (k : Nat), hostReadReg k s =
    .next { s with readouts := s.readouts ++
      [.register (if k = 0 then statusWord s else if k = 1 then configWord s.params else 0)] }

/-- 20_memory.md R52: a port element reads as the value last written to it, and a write to another element leaves it; a host write
answers exactly the written state, and a host read hands the element to the host (log 9). -/
def Obligations.PortElementReadsAsLastWritten : Prop :=
  ∀ (s : State) (p : Port) (v : Word), s.vbuf.length = s.params.n → portExists s p = true →
    fitsFmt s.params.fmt v = true →
    (∃ t, hostWrite p v s = .next t ∧ ∀ q, readPort t q = if q = p then v else readPort s q) ∧
    hostRead p s = .next { s with readouts := s.readouts ++ [.element (readPort s p)] }

/-- 20_memory.md R60, R63: a host read changes nothing but what the host has read; a host port write changes no coefficient, no
history, no SCR, no flag and no status. -/
def Obligations.HostAccessesHaveNoSideEffect : Prop :=
  ∀ (s t : State) (a : HostAction) (rest : List HostAction), s.inbox = a :: rest → step s = .next t →
    (∀ p, a = .read p → t = { s with inbox := rest, readouts := t.readouts }) ∧
    (∀ k, a = .readReg k → t = { s with inbox := rest, readouts := t.readouts }) ∧
    (∀ p v, a = .write p v →
      t = { s with inbox := rest, cdata := t.cdata, sdata := t.sdata, vbuf := t.vbuf } ∧
      ∀ q, q ≠ p → readPort t q = readPort s q)

/-! ### Reset (10_state.md section 7) -/

/-- 10_state.md R46: the value of every state element after hard reset, for every parameter set; and that the host's hard-reset
action leaves exactly these values, whatever the core held (60_exceptions.md R191; 70_reset_and_hazards.md R210), with operand ports
of N and FLEN-bit elements (R47). That the action keeps the parameters and what the host has still to do and has read is log 14. -/
def Obligations.HardResetValues : Prop :=
  let holdsResetValues := fun (p : Params) (s : State) =>
    let z := List.replicate p.n (0 : Word)
    s.params = p ∧
    s.eng.k = { a0 := z, a1 := z, a2 := z, b1 := z, b2 := z } ∧
    s.eng.h = { x1 := z, x2 := z, y1 := z, y2 := z } ∧
    s.eng.scr = z ∧ s.eng.uniform = false ∧
    s.sb.k = { a0 := 0, a1 := 0, a2 := 0, b1 := 0, b2 := 0 } ∧ s.sb.h = { x1 := 0, x2 := 0, y1 := 0, y2 := 0 } ∧
    s.err = false ∧ s.cause = .none ∧ statusWord s = 0 ∧
    s.vbuf.length = p.n ∧ fitsAll p.fmt s.vbuf = true ∧ fitsFmt p.fmt s.sdata = true ∧ cdataFits p.fmt s.cdata = true
  (∀ (p : Params) (d : Nat), holdsResetValues p (State.hardReset p d)) ∧
  (∀ (s : State) (rest : List HostAction), s.params.legal = true → s.inbox = .hardReset :: rest →
    ∃ t, step s = .next t ∧ holdsResetValues s.params t ∧ t.inbox = rest ∧ t.readouts = s.readouts)

/-- The invariant holds right after hard reset, for every legal parameter set and whatever the operand ports hold (10_state.md
R46, R47), and in `State.reset` (log 2, log 5). -/
def Obligations.HardResetMeetsTheInvariant : Prop :=
  (∀ (p : Params) (d : Nat), p.legal = true → (State.hardReset p d).Inv) ∧ State.reset.Inv

/-- A step from any state that meets the invariant gives a state that meets it: legal parameters, full files (10_state.md R30),
FLEN-bit words (20_memory.md R62), CAUSE 0 exactly while ERR is 0 (R33), SCR = X1 (R29). -/
def Obligations.StepKeepsTheInvariant : Prop := ∀ s t : State, s.Inv → step s = .next t → t.Inv

/-- 10_state.md R29: in every state reachable from hard reset, whatever the host does, SCR[i] and X1[i] hold the same bits. -/
def Obligations.ScratchEqualsX1WhereReachable : Prop :=
  ∀ (p : Params) (d k : Nat) (script : List HostAction) (t : State),
    Host.Core.run Sys2Proof.core k { State.hardReset p d with inbox := script } = .next t → t.eng.scr = t.eng.h.x1

/-! ### Status and configuration registers (10_state.md section 3) -/

/-- 10_state.md R33: the fields of STATUS, its reserved bits 0, and CAUSE 0 while ERR = 0 in every state of the invariant. -/
def Obligations.StatusRegisterFields : Prop :=
  ∀ s : State,
    (readReg s 0).extractLsb' 0 1 = BitVec.ofBool s.err ∧
    (readReg s 0).extractLsb' 1 3 = 0 ∧
    (readReg s 0).extractLsb' 4 4 = BitVec.ofNat 4 (match s.cause with
      | .none => 0 | .illegalCommand => 1 | .invalidArgument => 2 | .degenerateCoefficient => 3) ∧
    (readReg s 0).extractLsb' 8 1 = BitVec.ofBool s.eng.uniform ∧
    (readReg s 0).extractLsb' 9 23 = 0 ∧
    (s.Inv → s.err = false → (readReg s 0).extractLsb' 4 4 = 0)

/-- 10_state.md R34: the fields of CONFIG, that W is not reported, and that no step changes CONFIG nor the parameters. R34 says
constant for the life of the instance; that the host's hard-reset step keeps the parameters too is log 14 (DEDUCED). -/
def Obligations.ConfigRegisterFieldsAndConstancy : Prop :=
  (∀ s : State, s.params.legal = true →
    (readReg s 1).extractLsb' 0 1 = (match s.params.fmt with | .binary32 => 0 | .binary64 => 1) ∧
    (readReg s 1).extractLsb' 1 15 = 0 ∧
    ((readReg s 1).extractLsb' 16 16).toNat = s.params.n - 1 ∧
    ∀ w : Nat, readReg { s with params := { s.params with w := w } } 1 = readReg s 1) ∧
  (∀ s t : State, step s = .next t → t.params = s.params ∧ readReg t 1 = readReg s 1)

/-! ### The datapath functions (40_scalar_biquad.md) -/

/-- 40_scalar_biquad.md R104: NORM. Which free value each quotient draws is the model's choice (log 4). -/
def Obligations.NormDividesTheFiveGainsByB0 : Prop :=
  ∀ (p : Params) (d : Nat) (r : Raw),
    normCoeffs p d r =
      if p.policy = .fault ∧ isZero p.fmt r.b0 = true then .error .degenerateCoefficient
      else .ok
        { a0 := fdiv p.fmt (Config.freeWord d) r.a0 r.b0, a1 := fdiv p.fmt (Config.freeWord (d + 1)) r.a1 r.b0,
          a2 := fdiv p.fmt (Config.freeWord (d + 2)) r.a2 r.b0, b1 := fdiv p.fmt (Config.freeWord (d + 3)) r.b1 r.b0,
          b2 := fdiv p.fmt (Config.freeWord (d + 4)) r.b2 r.b0 }

/-- 40_scalar_biquad.md R106: BQ, its nine operations in their order. Which free value each draws is the model's choice (log 4). -/
def Obligations.RecurrenceOperationOrder : Prop :=
  ∀ (f : Fmt) (d : Nat) (k : Coeffs) (h : Hist) (x : Word),
    bq f d k h x =
      fsub f (Config.freeWord (d + 8))
        (fsub f (Config.freeWord (d + 7))
          (fadd f (Config.freeWord (d + 6))
            (fadd f (Config.freeWord (d + 5)) (fmul f (Config.freeWord d) k.a0 x)
              (fmul f (Config.freeWord (d + 1)) k.a1 h.x1))
            (fmul f (Config.freeWord (d + 2)) k.a2 h.x2))
          (fmul f (Config.freeWord (d + 3)) k.b1 h.y1))
        (fmul f (Config.freeWord (d + 4)) k.b2 h.y2)

/-- 40_scalar_biquad.md R110: SPM. -/
def Obligations.StatePropagationMux : Prop :=
  ∀ (h : Hist) (x y : Word),
    spm .hold h x y = { x1 := h.x1, x2 := h.x2, y1 := h.y1, y2 := h.y2 } ∧
    spm .shift h x y = { x1 := x, x2 := h.x1, y1 := y, y2 := h.y1 } ∧
    spm .clear h x y = { x1 := 0, x2 := 0, y1 := 0, y2 := 0 }

/-- 40_scalar_biquad.md R100: a result that is finite is the finite value of the format nearest to the exact `num / den`, and of
two equally near ones it is the even one. (Magnitudes in units of the smallest positive value.) -/
def Obligations.RoundingIsToNearestTiesToEven : Prop :=
  ∀ (f : Fmt) (num den c : Nat), 0 < den → roundMag f num den < f.infBits → c < f.infBits →
    ((num : Int) - magOf f (roundMag f num den) * den).natAbs ≤ ((num : Int) - magOf f c * den).natAbs ∧
    (((num : Int) - magOf f (roundMag f num den) * den).natAbs = ((num : Int) - magOf f c * den).natAbs →
      c = roundMag f num den ∨ roundMag f num den % 2 = 0)

/-- 40_scalar_biquad.md R103: the result is ∞ exactly when the exact magnitude is at or beyond the middle between the largest
finite value and the next power of two. -/
def Obligations.OverflowGoesToInfinity : Prop :=
  ∀ (f : Fmt) (num den : Nat), 0 < den →
    (roundMag f num den = f.infBits ↔ (2 ^ (f.fracBits + 2) - 1) * 2 ^ (2 * f.bias - 2) * den ≤ num)

/-- 40_scalar_biquad.md R100, R101, R103 (IEEE 754 itself: log 18): the result of each primitive on operands that are no NaNs, but
for the invalid operations of R102. On finite operands the exact result is rounded once, and an exact zero has the sign IEEE 754
gives it; a quotient by a zero and the results with infinite operands are the infinity or the zero of the sign that is due. -/
def Obligations.FiniteOperationsRoundTheExactResult : Prop :=
  (∀ (f : Fmt) (d a b : Word), isFinite f a = true → isFinite f b = true →
    let m := magOf f (magBits f a)
    let n := magOf f (magBits f b)
    let va : Int := if signOf f a then -m else m
    let vb : Int := if signOf f b then -n else n
    fmul f d a b = roundWord f (signOf f a ^^ signOf f b) (m * n) (2 ^ f.unitExp) ∧
    (isZero f b = false → fdiv f d a b = roundWord f (signOf f a ^^ signOf f b) (m * 2 ^ f.unitExp) n) ∧
    (isZero f a = false → isZero f b = true → fdiv f d a b = infWord f (signOf f a ^^ signOf f b)) ∧
    (va + vb ≠ 0 → fadd f d a b = roundWord f (decide (va + vb < 0)) (va + vb).natAbs 1) ∧
    (va + vb = 0 → fadd f d a b = zeroWord f (signOf f a && signOf f b)) ∧
    (va - vb ≠ 0 → fsub f d a b = roundWord f (decide (va - vb < 0)) (va - vb).natAbs 1) ∧
    (va - vb = 0 → fsub f d a b = zeroWord f (signOf f a && !signOf f b))) ∧
  (∀ (f : Fmt) (d a b : Word), isInf f a = true → isFinite f b = true →
    fadd f d a b = infWord f (signOf f a) ∧ fsub f d a b = infWord f (signOf f a) ∧
    (isZero f b = false → fmul f d a b = infWord f (signOf f a ^^ signOf f b)) ∧
    fdiv f d a b = infWord f (signOf f a ^^ signOf f b)) ∧
  (∀ (f : Fmt) (d a b : Word), isFinite f a = true → isInf f b = true →
    fadd f d a b = infWord f (signOf f b) ∧ fsub f d a b = infWord f (!signOf f b) ∧
    (isZero f a = false → fmul f d a b = infWord f (signOf f a ^^ signOf f b)) ∧
    fdiv f d a b = zeroWord f (signOf f a ^^ signOf f b)) ∧
  (∀ (f : Fmt) (d a b : Word), isInf f a = true → isInf f b = true →
    (signOf f a = signOf f b → fadd f d a b = infWord f (signOf f a)) ∧
    (signOf f a ≠ signOf f b → fsub f d a b = infWord f (signOf f a)) ∧
    fmul f d a b = infWord f (signOf f a ^^ signOf f b)) ∧
  (infWord .binary32 false = 0x7F800000 ∧ infWord .binary32 true = 0xFF800000 ∧ infWord .binary64 false = 0x7FF0000000000000 ∧
    infWord .binary64 true = 0xFFF0000000000000 ∧ zeroWord .binary32 true = 0x80000000 ∧
    zeroWord .binary64 true = 0x8000000000000000 ∧ ∀ f, zeroWord f false = 0)

/-- 40_scalar_biquad.md R102: exactly which results are NaNs; a NaN result is quiet; and its sign and payload are free: every quiet
NaN of the format is the result for some draw. -/
def Obligations.NaNResultsExactlyQuietAndFree : Prop :=
  (∀ (f : Fmt) (d a b : Word),
    (isNaN f (fmul f d a b) = true ↔ isNaN f a = true ∨ isNaN f b = true ∨
      (isZero f a = true ∧ isInf f b = true) ∨ (isInf f a = true ∧ isZero f b = true)) ∧
    (isNaN f (fadd f d a b) = true ↔ isNaN f a = true ∨ isNaN f b = true ∨
      (isInf f a = true ∧ isInf f b = true ∧ signOf f a ≠ signOf f b)) ∧
    (isNaN f (fsub f d a b) = true ↔ isNaN f a = true ∨ isNaN f b = true ∨
      (isInf f a = true ∧ isInf f b = true ∧ signOf f a = signOf f b)) ∧
    (isNaN f (fdiv f d a b) = true ↔ isNaN f a = true ∨ isNaN f b = true ∨
      (isZero f a = true ∧ isZero f b = true) ∨ (isInf f a = true ∧ isInf f b = true))) ∧
  (∀ op : Fmt → Word → Word → Word → Word, op = fmul ∨ op = fadd ∨ op = fsub ∨ op = fdiv →
    ∀ (f : Fmt) (d a b : Word), isNaN f (op f d a b) = true →
      magBits f (op f d a b) / f.quietWeight % 2 = 1 ∧
      ∀ v : Word, fitsFmt f v = true → isNaN f v = true → magBits f v / f.quietWeight % 2 = 1 →
        ∃ d', op f d' a b = v)

/-- 40_scalar_biquad.md R105: the corner cases of NORM, for one gain `g` and the raw `b`, and for b0 under FAULT. -/
def Obligations.NormCornerCases : Prop :=
  (∀ (f : Fmt) (d g b : Word),
    (isZero f b = true →
      (isFinite f g = true → isZero f g = false →
        isInf f (fdiv f d g b) = true ∧ signOf f (fdiv f d g b) = (signOf f g ^^ signOf f b)) ∧
      (isZero f g = true ∨ isNaN f g = true → isNaN f (fdiv f d g b) = true)) ∧
    (isInf f b = true →
      (isFinite f g = true → isZero f (fdiv f d g b) = true) ∧ (isInf f g = true → isNaN f (fdiv f d g b) = true)) ∧
    (isNaN f b = true → isNaN f (fdiv f d g b) = true) ∧
    (fitsFmt f g = true → isNaN f g = false →
      (b = BitVec.ofNat 64 (f.bias * 2 ^ f.fracBits) → fdiv f d g b = g) ∧
      (b = BitVec.ofNat 64 (f.signWeight + f.bias * 2 ^ f.fracBits) →
        fdiv f d g b = g ^^^ BitVec.ofNat 64 f.signWeight))) ∧
  (∀ d : Word, fdiv .binary32 d 0x3F800000 0x40400000 = 0x3EAAAAAB ∧
    fdiv .binary64 d 0x3FF0000000000000 0x4008000000000000 = 0x3FD5555555555555) ∧
  (∀ (p : Params) (d : Nat) (r : Raw), p.policy = .fault →
    normCoeffs p d r = if isZero p.fmt r.b0 = true then .error .degenerateCoefficient else normCoeffs { p with policy := .propagate } d r)

/-- 40_scalar_biquad.md R107: for equal coefficients, history and input, BQ returns equal bits, NaN sign and payload excepted,
whatever is drawn; and operands that agree up to that give results that agree up to that. -/
def Obligations.RecurrenceAgreesUpToNaN : Prop :=
  ∀ (f : Fmt) (d e : Nat) (k l : Coeffs) (g h : Hist) (x y : Word),
    sameCoeffs f k l = true → sameHist f g h = true → sameValue f x y = true →
    sameValue f (bq f d k g x) (bq f e l h y) = true

/-- 40_scalar_biquad.md R108: with the set (1, +0, +0, +0, +0) and zero history every non-NaN input comes out unchanged, but -0 as
+0; any NaN among the ten operands gives a NaN; an infinite input or tap whose coefficient is a zero gives a NaN (so an infinity sent
through the identity set makes the next output a NaN); and infinite terms of one effective sign give that infinity, where no term is
a NaN and no partial sum overflows to the other infinity (the last condition is log 16). -/
def Obligations.IdentitySectionAndNaNOperands : Prop :=
  (∀ (f : Fmt) (d : Nat) (x : Word), fitsFmt f x = true → isNaN f x = false →
    bq f d { a0 := BitVec.ofNat 64 (f.bias * 2 ^ f.fracBits), a1 := 0, a2 := 0, b1 := 0, b2 := 0 }
      { x1 := 0, x2 := 0, y1 := 0, y2 := 0 } x = if x = BitVec.ofNat 64 f.signWeight then 0 else x) ∧
  (∀ (f : Fmt) (d : Nat) (k : Coeffs) (h : Hist) (x : Word),
    (∃ v ∈ [k.a0, k.a1, k.a2, k.b1, k.b2, h.x1, h.x2, h.y1, h.y2, x], isNaN f v = true) → isNaN f (bq f d k h x) = true) ∧
  (∀ (f : Fmt) (d : Nat) (k : Coeffs) (h : Hist) (x : Word),
    (∃ cv ∈ [(k.a0, x), (k.a1, h.x1), (k.a2, h.x2), (k.b1, h.y1), (k.b2, h.y2)],
      isZero f cv.1 = true ∧ isInf f cv.2 = true) → isNaN f (bq f d k h x) = true) ∧
  (∀ (f : Fmt) (d : Nat) (k : Coeffs) (h : Hist) (x : Word) (neg : Bool),
    let t0 := fmul f (Config.freeWord d) k.a0 x
    let t1 := fmul f (Config.freeWord (d + 1)) k.a1 h.x1
    let t2 := fmul f (Config.freeWord (d + 2)) k.a2 h.x2
    let t3 := fmul f (Config.freeWord (d + 3)) k.b1 h.y1
    let t4 := fmul f (Config.freeWord (d + 4)) k.b2 h.y2
    let s1 := fadd f (Config.freeWord (d + 5)) t0 t1
    let s2 := fadd f (Config.freeWord (d + 6)) s1 t2
    let s3 := fsub f (Config.freeWord (d + 7)) s2 t3
    (∀ t ∈ [t0, t1, t2, t3, t4], isNaN f t = false) →
    (∀ t ∈ [t0, t1, t2], isInf f t = true → signOf f t = neg) →
    (∀ t ∈ [t3, t4], isInf f t = true → signOf f t = !neg) →
    (∃ t ∈ [t0, t1, t2, t3, t4], isInf f t = true) →
    (∀ s ∈ [s1, s2, s3], isInf f s = true → signOf f s = neg) →
    bq f d k h x = infWord f neg)

/-- 40_scalar_biquad.md R108, R121, as the rules R100, R103 and R106 give it (log 16): with every coefficient +0 and finite history, a
finite input gives a zero, which is +0 but where x, x1 and x2 have sign - and y1 and y2 sign +; an infinite or NaN input gives a
NaN. -/
def Obligations.UnconfiguredSectionOutputsZero : Prop :=
  ∀ (f : Fmt) (d : Nat) (h : Hist) (x : Word),
    isFinite f h.x1 = true → isFinite f h.x2 = true → isFinite f h.y1 = true → isFinite f h.y2 = true →
    (isFinite f x = true →
      isZero f (bq f d { a0 := 0, a1 := 0, a2 := 0, b1 := 0, b2 := 0 } h x) = true ∧
      (¬(signOf f x = true ∧ signOf f h.x1 = true ∧ signOf f h.x2 = true ∧ signOf f h.y1 = false ∧ signOf f h.y2 = false) →
        bq f d { a0 := 0, a1 := 0, a2 := 0, b1 := 0, b2 := 0 } h x = 0) ∧
      (signOf f x = true → signOf f h.x1 = true → signOf f h.x2 = true → signOf f h.y1 = false → signOf f h.y2 = false →
        bq f d { a0 := 0, a1 := 0, a2 := 0, b1 := 0, b2 := 0 } h x = BitVec.ofNat 64 f.signWeight)) ∧
    (isInf f x = true ∨ isNaN f x = true → isNaN f (bq f d { a0 := 0, a1 := 0, a2 := 0, b1 := 0, b2 := 0 } h x) = true)

/-- 40_scalar_biquad.md R121 to the letter: with the hard-reset coefficients SB.PROCESS returns +0 for every finite input, the
history being finite (R108). EXPECTED TO FAIL: three negative inputs in a row give -0 by R100, R103 and R106 (log 16). -/
def Obligations.UnconfiguredSectionReturnsPlusZero : Prop :=
  ∀ s t : State, s.err = false → s.sb.k = { a0 := 0, a1 := 0, a2 := 0, b1 := 0, b2 := 0 } →
    isFinite s.params.fmt s.sb.h.x1 = true → isFinite s.params.fmt s.sb.h.x2 = true →
    isFinite s.params.fmt s.sb.h.y1 = true → isFinite s.params.fmt s.sb.h.y2 = true →
    isFinite s.params.fmt s.sdata = true → exec .sbProcess s = .next t → t.sdata = 0

/-! ### What each command does (40_scalar_biquad.md section 5, 41_parallel_engine.md) -/

/-- 40_scalar_biquad.md R113: SB.SETC stores the five quotients of CDATA and changes nothing else. (`draws` is the model's count of
free values, log 6.) -/
def Obligations.SbSetcStoresTheNormalizedSet : Prop :=
  ∀ s : State, s.err = false → (s.params.policy = .propagate ∨ isZero s.params.fmt s.cdata.c3 = false) →
    exec .sbSetc s = .next
      { s with
        sb := { s.sb with k :=
          { a0 := fdiv s.params.fmt (Config.freeWord s.draws) s.cdata.c0 s.cdata.c3
            a1 := fdiv s.params.fmt (Config.freeWord (s.draws + 1)) s.cdata.c1 s.cdata.c3
            a2 := fdiv s.params.fmt (Config.freeWord (s.draws + 2)) s.cdata.c2 s.cdata.c3
            b1 := fdiv s.params.fmt (Config.freeWord (s.draws + 3)) s.cdata.c4 s.cdata.c3
            b2 := fdiv s.params.fmt (Config.freeWord (s.draws + 4)) s.cdata.c5 s.cdata.c3 } }
        draws := s.draws + 5 }

/-- 40_scalar_biquad.md R118, R120: SB.PROCESS outputs BQ of SDATA in SDATA, shifts the history, and changes nothing else.
(`draws`: log 4, log 6.) -/
def Obligations.SbProcessFiltersOneSample : Prop :=
  ∀ s : State, s.err = false →
    exec .sbProcess s = .next
      { s with
        sb := { s.sb with h :=
          { x1 := s.sdata, x2 := s.sb.h.x1, y1 := bq s.params.fmt s.draws s.sb.k s.sb.h s.sdata, y2 := s.sb.h.y1 } }
        sdata := bq s.params.fmt s.draws s.sb.k s.sb.h s.sdata
        draws := s.draws + 9 }

/-- 40_scalar_biquad.md R125: SB.RESET clears SB's history and changes nothing else. -/
def Obligations.SbResetClearsTheHistory : Prop :=
  ∀ s : State, s.err = false →
    exec .sbReset s = .next { s with sb := { s.sb with h := { x1 := 0, x2 := 0, y1 := 0, y2 := 0 } } }

/-- 41_parallel_engine.md R141: ENG.SETC.ALL stores the five quotients of CDATA in every lane, sets UNIFORM, and changes nothing
else. (`draws`: log 4, log 6.) -/
def Obligations.EngSetcAllStoresTheSetInEveryLane : Prop :=
  ∀ s : State, s.err = false → (s.params.policy = .propagate ∨ isZero s.params.fmt s.cdata.c3 = false) →
    exec .engSetcAll s = .next
      { s with
        eng := { s.eng with
          k :=
            { a0 := List.replicate s.params.n (fdiv s.params.fmt (Config.freeWord s.draws) s.cdata.c0 s.cdata.c3)
              a1 := List.replicate s.params.n (fdiv s.params.fmt (Config.freeWord (s.draws + 1)) s.cdata.c1 s.cdata.c3)
              a2 := List.replicate s.params.n (fdiv s.params.fmt (Config.freeWord (s.draws + 2)) s.cdata.c2 s.cdata.c3)
              b1 := List.replicate s.params.n (fdiv s.params.fmt (Config.freeWord (s.draws + 3)) s.cdata.c4 s.cdata.c3)
              b2 := List.replicate s.params.n (fdiv s.params.fmt (Config.freeWord (s.draws + 4)) s.cdata.c5 s.cdata.c3) }
          uniform := true }
        draws := s.draws + 5 }

/-- 41_parallel_engine.md R146: ENG.SETC.LANE stores the five quotients of CDATA in its lane, clears UNIFORM, and changes nothing
else. (`draws`: log 4, log 6.) -/
def Obligations.EngSetcLaneStoresTheSetInOneLane : Prop :=
  ∀ (s : State) (lane : Nat), s.err = false → lane < s.params.n →
    (s.params.policy = .propagate ∨ isZero s.params.fmt s.cdata.c3 = false) →
    exec (.engSetcLane lane) s = .next
      { s with
        eng := { s.eng with
          k :=
            { a0 := s.eng.k.a0.set lane (fdiv s.params.fmt (Config.freeWord s.draws) s.cdata.c0 s.cdata.c3)
              a1 := s.eng.k.a1.set lane (fdiv s.params.fmt (Config.freeWord (s.draws + 1)) s.cdata.c1 s.cdata.c3)
              a2 := s.eng.k.a2.set lane (fdiv s.params.fmt (Config.freeWord (s.draws + 2)) s.cdata.c2 s.cdata.c3)
              b1 := s.eng.k.b1.set lane (fdiv s.params.fmt (Config.freeWord (s.draws + 3)) s.cdata.c4 s.cdata.c3)
              b2 := s.eng.k.b2.set lane (fdiv s.params.fmt (Config.freeWord (s.draws + 4)) s.cdata.c5 s.cdata.c3) }
          uniform := false }
        draws := s.draws + 5 }

/-- 41_parallel_engine.md R149 to R151, R162: ENG.PROCESS, for every W and with its batches evaluated operation by operation W wide,
is the scalar recurrence run on every lane: output into VBUF, input into X1 and SCR, history shifted, and nothing else changed.
(`draws` and the draws of a lane: log 4, log 6.) -/
def Obligations.EngProcessIsTheScalarRecurrenceInEveryLane : Prop :=
  ∀ s : State, s.err = false →
    let y := fun i => bq s.params.fmt (s.draws + 9 * i) (laneCoeffs s.eng.k i) (laneHist s.eng.h i) (s.vbuf.getD i 0)
    exec .engProcess s = .next
      { s with
        eng := { s.eng with
          h :=
            { x1 := (List.range s.params.n).map fun i => s.vbuf.getD i 0
              x2 := (List.range s.params.n).map fun i => s.eng.h.x1.getD i 0
              y1 := (List.range s.params.n).map y
              y2 := (List.range s.params.n).map fun i => s.eng.h.y1.getD i 0 }
          scr := (List.range s.params.n).map fun i => s.vbuf.getD i 0 }
        vbuf := (List.range s.params.n).map y
        draws := s.draws + 9 * s.params.n }

/-- 41_parallel_engine.md R157, R160: ENG.RESET, for every W, clears the history and SCR of every lane and changes nothing else. -/
def Obligations.EngResetClearsEveryLane : Prop :=
  ∀ s : State, s.err = false →
    exec .engReset s = .next
      { s with
        eng := { s.eng with
          h :=
            { x1 := List.replicate s.params.n 0
              x2 := List.replicate s.params.n 0
              y1 := List.replicate s.params.n 0
              y2 := List.replicate s.params.n 0 }
          scr := List.replicate s.params.n 0 } }

/-- 30_encoding.md R84, R82: the five pseudo-instructions, run as the host actions of their expansions, write their port, perform
their command and, for FILT and SFILT, read the result port (into `readouts`, log 9; the order of the elements is log 20). -/
def Obligations.PseudoInstructionsRunAsTheirExpansions : Prop :=
  ∀ (s : State) (r : Raw) (v : Word) (vs : List Word) (lane : Nat),
    s.params.legal = true → s.vbuf.length = s.params.n → lane < 65536 →
    vs.length = s.params.n → fitsAll s.params.fmt vs = true → fitsFmt s.params.fmt v = true →
    fitsAll s.params.fmt [r.a0, r.a1, r.a2, r.b0, r.b1, r.b2] = true →
    let run := fun (k : Nat) (l : AsmLine) => Host.Core.run Sys2Proof.core k { s with inbox := l.actions s.params.n }
    let c := { s with inbox := [], cdata := { c0 := r.a0, c1 := r.a1, c2 := r.a2, c3 := r.b0, c4 := r.b1, c5 := r.b2 } }
    run 7 (.setcAll r) = exec .engSetcAll c ∧
    run 7 (.setcLane lane r) = exec (.engSetcLane lane) c ∧
    run 7 (.ssetc r) = exec .sbSetc c ∧
    (∀ t, exec .sbProcess { s with inbox := [], sdata := v } = .next t →
      run 3 (.sfilt v) = .next { t with readouts := s.readouts ++ [.element t.sdata] }) ∧
    (∀ t, exec .engProcess { s with inbox := [], vbuf := vs } = .next t →
      run (2 * s.params.n + 1) (.filt vs) = .next { t with readouts := s.readouts ++ t.vbuf.map .element })

/-! ### Faults (60_exceptions.md) -/

/-- 60_exceptions.md R182: ENG.SETC.LANE with LANE ≥ N raises InvalidArgument and writes nothing else, whatever b0 is. -/
def Obligations.OutOfRangeLaneFaults : Prop :=
  ∀ (s : State) (lane : Nat), s.err = false → s.params.n ≤ lane →
    exec (.engSetcLane lane) s = .next { s with err := true, cause := .invalidArgument }

/-- 60_exceptions.md R183: DegenerateCoefficient is raised exactly by the three coefficient commands under FAULT with b0 = +0 or
-0, and then nothing but STATUS is written. -/
def Obligations.DegenerateCoefficientExactly : Prop :=
  ∀ (s t : State) (i : Instr), s.err = false → s.cause = .none → fitsFmt s.params.fmt s.cdata.c3 = true →
    exec i s = .next t →
    (t.cause = .degenerateCoefficient ↔
      (i = .sbSetc ∨ i = .engSetcAll ∨ ∃ lane, i = .engSetcLane lane ∧ lane < s.params.n) ∧ s.params.policy = .fault ∧
        (s.cdata.c3 = 0 ∨ s.cdata.c3 = BitVec.ofNat 64 s.params.fmt.signWeight)) ∧
    (t.cause = .degenerateCoefficient → t = { s with err := true, cause := .degenerateCoefficient })

/-- 60_exceptions.md R188: the checks of one command word, in order, and the first that fails is reported. -/
def Obligations.ChecksRunInOrder : Prop :=
  ∀ (w : CmdWord) (s : State), ∃ t, issueCommand w s = .next t ∧
    if s.err = true then t = s
    else if opcField w ∉ [0x01, 0x02, 0x03, 0x04, 0x11, 0x12, 0x13] then t = { s with err := true, cause := .illegalCommand }
    else if rsvField w ≠ 0 then t = { s with err := true, cause := .illegalCommand }
    else if opcField w ≠ 0x02 ∧ laneField w ≠ 0 then t = { s with err := true, cause := .illegalCommand }
    else if opcField w = 0x02 ∧ s.params.n ≤ laneField w then t = { s with err := true, cause := .invalidArgument }
    else if opcField w ∈ [0x01, 0x02, 0x11] ∧ s.params.policy = .fault ∧ isZero s.params.fmt s.cdata.c3 = true then
      t = { s with err := true, cause := .degenerateCoefficient }
    else t.err = false ∧ t.cause = s.cause

/-- 60_exceptions.md R187: a FAULTED core consumes every command word and executes nothing; port and register accesses still work;
only hard reset leaves the condition. (`record` is how the model hands a read to the host, log 9.) -/
def Obligations.FaultedCoreExecutesNothing : Prop :=
  ∀ s : State, s.err = true →
    (∀ w, issueCommand w s = .next s) ∧ (∀ i, exec i s = .next s) ∧
    (∀ p v, portExists s p = true → fitsFmt s.params.fmt v = true → hostWrite p v s = .next (writePort s p v)) ∧
    (∀ p, portExists s p = true → hostRead p s = .next (record (.element (readPort s p)) s)) ∧
    (∀ k, hostReadReg k s = .next (record (.register (readReg s k)) s)) ∧
    (∀ t, step s = .next t → s.inbox.head? ≠ some .hardReset → t.err = true ∧ t.cause = s.cause) ∧
    (∀ t, step s = .next t → s.inbox.head? = some .hardReset → t.err = false ∧ t.cause = .none)

/-- 60_exceptions.md R186, R189: a command word that faults changes nothing but STATUS, and no later command word has any effect. -/
def Obligations.FaultsArePrecise : Prop :=
  ∀ (w : CmdWord) (s t : State), s.err = false → issueCommand w s = .next t → t.err = true →
    t = { s with err := true, cause := t.cause } ∧ ∀ w', issueCommand w' t = .next t

/-- 60_exceptions.md R200: in a run where the host issues only legal commands with LANE < N and, under FAULT, b0 ≠ 0, no fault
occurs and STATUS stays 0 apart from UNIFORM. -/
def Obligations.CleanRunsRaiseNoFault : Prop :=
  ∀ (k : Nat) (s t : State), s.err = false → s.cause = .none → cleanRun k s →
    Host.Core.run Sys2Proof.core k s = .next t →
    t.err = false ∧ t.cause = .none ∧ statusWord t = if t.eng.uniform = true then 0x00000100 else 0x00000000

/-! ### What commands leave alone -/

/-- 40_scalar_biquad.md R133: an SB command never changes ENG state and an ENG command never changes SB state. -/
def Obligations.BlocksActOnDisjointState : Prop :=
  ∀ (s t : State) (i : Instr), exec i s = .next t →
    ((i = .sbSetc ∨ i = .sbProcess ∨ i = .sbReset) → t.eng = s.eng) ∧
    ((i = .engSetcAll ∨ (∃ lane, i = .engSetcLane lane) ∨ i = .engProcess ∨ i = .engReset) → t.sb = s.sb)

/-- The frame of the three SB commands: every register, port, flag and status bit but the ones R113, R118 and R125 name. -/
def Obligations.SbCommandsFrame : Prop :=
  ∀ (s t : State) (i : Instr), (i = .sbSetc ∨ i = .sbProcess ∨ i = .sbReset) → exec i s = .next t →
    t.params = s.params ∧ t.eng = s.eng ∧ t.cdata = s.cdata ∧ t.vbuf = s.vbuf ∧ t.inbox = s.inbox ∧
    t.readouts = s.readouts ∧
    (i ≠ .sbSetc → t.sb.k = s.sb.k ∧ t.err = s.err ∧ t.cause = s.cause) ∧
    (i = .sbSetc → t.sb.h = s.sb.h) ∧
    (i ≠ .sbProcess → t.sdata = s.sdata)

/-- 41_parallel_engine.md R167: ENG commands never change SB, SDATA or CDATA; ENG.PROCESS never changes coefficients or UNIFORM; the
coefficient commands never change history, SCR or VBUF; with the rest of the frame of the four commands
(`inbox` and `readouts` are the model's own fields, log 7, log 9). -/
def Obligations.EngCommandsFrame : Prop :=
  ∀ (s t : State) (i : Instr), (i = .engSetcAll ∨ (∃ lane, i = .engSetcLane lane) ∨ i = .engProcess ∨ i = .engReset) →
    exec i s = .next t →
    t.params = s.params ∧ t.sb = s.sb ∧ t.sdata = s.sdata ∧ t.cdata = s.cdata ∧ t.inbox = s.inbox ∧
    t.readouts = s.readouts ∧
    ((i = .engProcess ∨ i = .engReset) →
      t.eng.k = s.eng.k ∧ t.eng.uniform = s.eng.uniform ∧ t.err = s.err ∧ t.cause = s.cause) ∧
    ((i = .engSetcAll ∨ ∃ lane, i = .engSetcLane lane) → t.eng.h = s.eng.h ∧ t.eng.scr = s.eng.scr) ∧
    (i ≠ .engProcess → t.vbuf = s.vbuf)

/-- 10_state.md R24, R36: over every step, only the coefficient commands of a block, and hard reset, change its coefficients. -/
def Obligations.CoefficientsChangeOnlyBySetc : Prop :=
  ∀ s t : State, step s = .next t → s.inbox.head? ≠ some .hardReset →
    (t.eng.k ≠ s.eng.k → ∃ w, s.inbox.head? = some (.command w) ∧
      (decode w = .ok .engSetcAll ∨ ∃ lane, decode w = .ok (.engSetcLane lane))) ∧
    (t.sb.k ≠ s.sb.k → ∃ w, s.inbox.head? = some (.command w) ∧ decode w = .ok .sbSetc)

/-- 10_state.md R27, R28: over every step, only PROCESS and RESET of a block, and hard reset, change its history and its scratch. -/
def Obligations.HistoryChangesOnlyByProcessAndReset : Prop :=
  ∀ s t : State, step s = .next t → s.inbox.head? ≠ some .hardReset →
    (t.eng.h ≠ s.eng.h ∨ t.eng.scr ≠ s.eng.scr → ∃ w, s.inbox.head? = some (.command w) ∧
      (decode w = .ok .engProcess ∨ decode w = .ok .engReset)) ∧
    (t.sb.h ≠ s.sb.h → ∃ w, s.inbox.head? = some (.command w) ∧ (decode w = .ok .sbProcess ∨ decode w = .ok .sbReset))

/-- 40_scalar_biquad.md R111: the select SB's mux and every lane's mux take under each command, and HOLD under an illegal command
and while FAULTED. -/
def Obligations.MuxSelectPerCommand : Prop :=
  (∀ (s t : State) (i : Instr), s.err = false → s.LanesFull → exec i s = .next t →
    t.sb.h = spm (match i with
        | .sbProcess => .shift
        | .sbReset => .clear
        | .sbSetc | .engSetcAll | .engSetcLane _ | .engProcess | .engReset => .hold) s.sb.h s.sdata t.sdata ∧
    ∀ l, l < s.params.n →
      laneHist t.eng.h l = spm (match i with
          | .engProcess => .shift
          | .engReset => .clear
          | .sbSetc | .sbProcess | .sbReset | .engSetcAll | .engSetcLane _ => .hold)
        (laneHist s.eng.h l) (s.vbuf.getD l 0) (t.vbuf.getD l 0)) ∧
  (∀ (s t : State) (w : CmdWord), (s.err = true ∨ ∃ e, decode w = .error e) → issueCommand w s = .next t →
    t.sb.h = s.sb.h ∧ t.eng.h = s.eng.h)

/-- 10_state.md R44: no command writes both the coefficients and the history of a block. -/
def Obligations.NoCommandWritesBothDimensions : Prop :=
  ∀ (s t : State) (i : Instr), exec i s = .next t →
    (t.eng.k = s.eng.k ∨ (t.eng.h = s.eng.h ∧ t.eng.scr = s.eng.scr)) ∧ (t.sb.k = s.sb.k ∨ t.sb.h = s.sb.h)

/-- 41_parallel_engine.md R148, 10_state.md R32: UNIFORM becomes 1 by a successful ENG.SETC.ALL, 0 by a successful ENG.SETC.LANE, and
no other command changes it. -/
def Obligations.UniformRecordsTheLastCoefficientCommand : Prop :=
  ∀ (s t : State) (i : Instr), exec i s = .next t →
    t.eng.uniform =
      if t.err = true then s.eng.uniform
      else match i with
        | .engSetcAll => true
        | .engSetcLane _ => false
        | .engProcess | .engReset | .sbSetc | .sbProcess | .sbReset => s.eng.uniform

/-- 40_scalar_biquad.md R126, 41_parallel_engine.md R158: two resets of a block in a row leave the state one leaves. -/
def Obligations.SoftResetsAreIdempotent : Prop :=
  ∀ (s t : State) (i : Instr), (i = .sbReset ∨ i = .engReset) → exec i s = .next t → exec i t = .next t

/-- 40_scalar_biquad.md R131: once sb.y1 holds a NaN every SB.PROCESS outputs a NaN, and no step but SB.RESET or hard reset ends it;
a NaN input makes the output a NaN. -/
def Obligations.NaNStaysInTheScalarSection : Prop :=
  (∀ s t : State, s.err = false → exec .sbProcess s = .next t →
    (isNaN s.params.fmt s.sb.h.y1 = true ∨ isNaN s.params.fmt s.sdata = true) →
    isNaN s.params.fmt t.sdata = true ∧ isNaN s.params.fmt t.sb.h.y1 = true) ∧
  (∀ s t : State, step s = .next t → isNaN s.params.fmt s.sb.h.y1 = true → s.inbox.head? ≠ some .hardReset →
    s.inbox.head? ≠ some (.command 0x00000013) → isNaN s.params.fmt t.sb.h.y1 = true)

/-! ### Lanes, parity and the partition (41_parallel_engine.md section 5) -/

/-- 41_parallel_engine.md R142: after ENG.SETC.ALL every lane holds the same five bit patterns, NORM's of CDATA. Which free values NORM
draws in the second clause is the model's choice (log 4, log 6). -/
def Obligations.SetcAllGivesEveryLaneTheSamePatterns : Prop :=
  ∀ s t : State, s.err = false → exec .engSetcAll s = .next t → t.err = false →
    ∀ i j, i < s.params.n → j < s.params.n →
      laneCoeffs t.eng.k i = laneCoeffs t.eng.k j ∧
      normCoeffs s.params s.draws (rawOperand s) = .ok (laneCoeffs t.eng.k i)

/-- 41_parallel_engine.md R143: ENG.SETC.ALL, ENG.SETC.LANE and SB.SETC given the same CDATA store the same set, NaN sign and payload
excepted (40_scalar_biquad.md R102). -/
def Obligations.CoefficientCommandsStoreTheSameSet : Prop :=
  ∀ s t u : State, s.err = false → s.LanesFull → exec .sbSetc t = .next u → u.err = false →
    (exec .engSetcAll s = .next t → ∀ i, i < s.params.n → sameCoeffs s.params.fmt (laneCoeffs u.eng.k i) u.sb.k = true) ∧
    (∀ i, i < s.params.n → exec (.engSetcLane i) s = .next t →
      sameCoeffs s.params.fmt (laneCoeffs u.eng.k i) u.sb.k = true)

/-- 41_parallel_engine.md R147: ENG.SETC.LANE on one lane changes no state of another, so the other's next output is, NaN sign and
payload excepted, what it would have been. -/
def Obligations.LaneConfigurationLeavesOtherLanes : Prop :=
  ∀ (s t : State) (i j : Nat), exec (.engSetcLane i) s = .next t → j ≠ i →
    (laneCoeffs t.eng.k j = laneCoeffs s.eng.k j ∧ laneHist t.eng.h j = laneHist s.eng.h j ∧
      t.eng.scr.getD j 0 = s.eng.scr.getD j 0 ∧ t.vbuf.getD j 0 = s.vbuf.getD j 0) ∧
    ∀ u v : State, j < s.params.n → t.err = false → exec .engProcess s = .next u → exec .engProcess t = .next v →
      sameValue s.params.fmt (u.vbuf.getD j 0) (v.vbuf.getD j 0) = true ∧
      sameHist s.params.fmt (laneHist u.eng.h j) (laneHist v.eng.h j) = true

/-- 41_parallel_engine.md R153, R166: what ENG.PROCESS gives a lane depends on that lane's coefficients, history and input alone:
two lanes, of one engine or of two, that agree in these agree in output and next history, NaN sign and payload excepted. -/
def Obligations.LaneResultDependsOnItsLaneAlone : Prop :=
  ∀ (s s' t t' : State) (i j : Nat), s.err = false → s'.err = false → s'.params.fmt = s.params.fmt →
    i < s.params.n → j < s'.params.n →
    sameCoeffs s.params.fmt (laneCoeffs s.eng.k i) (laneCoeffs s'.eng.k j) = true →
    sameHist s.params.fmt (laneHist s.eng.h i) (laneHist s'.eng.h j) = true →
    sameValue s.params.fmt (s.vbuf.getD i 0) (s'.vbuf.getD j 0) = true →
    exec .engProcess s = .next t → exec .engProcess s' = .next t' →
    sameValue s.params.fmt (t.vbuf.getD i 0) (t'.vbuf.getD j 0) = true ∧
    sameHist s.params.fmt (laneHist t.eng.h i) (laneHist t'.eng.h j) = true

/-- 41_parallel_engine.md R161: W-invariance: every command gives the same result for every W. That it holds for NaN sign and payload
too is the model's choice of draws (log 4). -/
def Obligations.VectorWidthIsNotObservable : Prop :=
  ∀ (s t : State) (i : Instr) (w : Nat), exec i s = .next t →
    exec i { s with params := { s.params with w := w } } = .next { t with params := { t.params with w := w } }

/-- 41_parallel_engine.md R165: parity. If lane `i` and SB agree in coefficients, history and input, then after ENG.PROCESS and
SB.PROCESS they agree in output, coefficients and history again, NaN sign and payload excepted. -/
def Obligations.EngineLaneKeepsParityWithTheScalarSection : Prop :=
  ∀ (s t u : State) (i : Nat), s.err = false → i < s.params.n → s.LaneMatchesSb i →
    sameValue s.params.fmt (s.vbuf.getD i 0) s.sdata = true →
    exec .engProcess s = .next t → exec .sbProcess t = .next u →
    sameValue u.params.fmt (u.vbuf.getD i 0) u.sdata = true ∧ u.LaneMatchesSb i
end

