-- ==== Sys2Proof/Laws/Float.lean ====
section
/-! SUPPORT. What the IEEE 754 primitives return: the layout of a packed word, the width of every result, and which results are
NaNs. -/

namespace Sys2Proof.Machine

theorem signWeight_pos (f : Fmt) : 0 < f.signWeight := by cases f <;> decide

theorem infBits_quiet_le (f : Fmt) : f.infBits + 2 * f.quietWeight ≤ f.signWeight := by cases f <;> decide

theorem quietWeight_pos (f : Fmt) : 0 < f.quietWeight := by cases f <;> decide

theorem infBits_pos (f : Fmt) : 0 < f.infBits := by cases f <;> decide

theorem infBits_lt_signWeight (f : Fmt) : f.infBits < f.signWeight := by
  have := infBits_quiet_le f; have := quietWeight_pos f; omega

theorem two_signWeight (f : Fmt) : 2 * f.signWeight = 2 ^ f.flen := by cases f <;> decide

theorem flen_le (f : Fmt) : 2 ^ f.flen ≤ 2 ^ 64 := by cases f <;> decide

/-- The number a packed word is. -/
theorem packBits_toNat (f : Fmt) (neg : Bool) {b : Nat} (hb : b < f.signWeight) :
    (packBits f neg b).toNat = (if neg then f.signWeight else 0) + b := by
  have h1 := two_signWeight f
  have h2 := flen_le f
  unfold packBits
  rw [BitVec.toNat_ofNat]
  apply Nat.mod_eq_of_lt
  split <;> omega

theorem magBits_packBits (f : Fmt) (neg : Bool) {b : Nat} (hb : b < f.signWeight) :
    magBits f (packBits f neg b) = b := by
  unfold magBits
  rw [packBits_toNat f neg hb]
  split <;> simp [Nat.mod_eq_of_lt hb]

theorem signOf_packBits (f : Fmt) (neg : Bool) {b : Nat} (hb : b < f.signWeight) :
    signOf f (packBits f neg b) = neg := by
  have hp := signWeight_pos f
  unfold signOf
  rw [packBits_toNat f neg hb]
  cases neg
  · simp [Nat.div_eq_of_lt hb]
  · simp [Nat.add_div_left, Nat.div_eq_of_lt hb, hp]

theorem fitsFmt_packBits (f : Fmt) (neg : Bool) {b : Nat} (hb : b < f.signWeight) :
    fitsFmt f (packBits f neg b) = true := by
  have h1 := two_signWeight f
  unfold fitsFmt
  rw [packBits_toNat f neg hb]
  simp only [decide_eq_true_eq]
  split <;> omega

/-- An FLEN-bit word is its sign and its magnitude bits packed. -/
theorem packBits_signOf_magBits (f : Fmt) (w : Word) (hw : fitsFmt f w = true) :
    packBits f (signOf f w) (magBits f w) = w := by
  have hp := signWeight_pos f
  have h1 := two_signWeight f
  have hm : magBits f w < f.signWeight := Nat.mod_lt _ hp
  simp only [fitsFmt, decide_eq_true_eq] at hw
  apply BitVec.eq_of_toNat_eq
  rw [packBits_toNat f _ hm]
  have hd : w.toNat / f.signWeight < 2 := by
    rw [Nat.div_lt_iff_lt_mul hp]; omega
  have he := Nat.div_add_mod w.toNat f.signWeight
  unfold signOf magBits
  generalize hq : w.toNat / f.signWeight = q at *
  have : q = 0 ∨ q = 1 := by omega
  rcases this with rfl | rfl
  · simpa using he
  · simpa using he

theorem roundMag_le (f : Fmt) (num den : Nat) : roundMag f num den ≤ f.infBits := Nat.min_le_right _ _

theorem roundMag_lt (f : Fmt) (num den : Nat) : roundMag f num den < f.signWeight :=
  Nat.lt_of_le_of_lt (roundMag_le f num den) (infBits_lt_signWeight f)

theorem quietMag_lt (f : Fmt) (d : Word) : f.infBits + f.quietWeight + d.toNat % f.quietWeight < f.signWeight := by
  have h1 := infBits_quiet_le f
  have h2 := Nat.mod_lt d.toNat (quietWeight_pos f)
  omega

/-- A drawn NaN is a NaN. -/
theorem isNaN_quietNaN (f : Fmt) (d : Word) : isNaN f (quietNaN f d) = true := by
  have h := quietWeight_pos f
  unfold isNaN quietNaN
  rw [magBits_packBits f _ (quietMag_lt f d)]
  simp only [decide_eq_true_eq]; omega

theorem isNaN_roundWord (f : Fmt) (neg : Bool) (num den : Nat) : isNaN f (roundWord f neg num den) = false := by
  have h := roundMag_le f num den
  unfold isNaN roundWord
  rw [magBits_packBits f _ (roundMag_lt f num den)]
  simp only [decide_eq_false_iff_not]; omega

theorem isNaN_infWord (f : Fmt) (neg : Bool) : isNaN f (infWord f neg) = false := by
  unfold isNaN infWord
  rw [magBits_packBits f _ (infBits_lt_signWeight f)]
  simp

theorem isNaN_zeroWord (f : Fmt) (neg : Bool) : isNaN f (zeroWord f neg) = false := by
  unfold isNaN zeroWord
  rw [magBits_packBits f _ (signWeight_pos f)]
  simp

theorem fits_quietNaN (f : Fmt) (d : Word) : fitsFmt f (quietNaN f d) = true := fitsFmt_packBits f _ (quietMag_lt f d)

theorem fits_roundWord (f : Fmt) (neg : Bool) (num den : Nat) : fitsFmt f (roundWord f neg num den) = true :=
  fitsFmt_packBits f _ (roundMag_lt f num den)

theorem fits_infWord (f : Fmt) (neg : Bool) : fitsFmt f (infWord f neg) = true :=
  fitsFmt_packBits f _ (infBits_lt_signWeight f)

theorem fits_zeroWord (f : Fmt) (neg : Bool) : fitsFmt f (zeroWord f neg) = true :=
  fitsFmt_packBits f _ (signWeight_pos f)

theorem fits_plusZero (f : Fmt) : fitsFmt f plusZero = true := by cases f <;> decide

theorem fits_truncFmt (f : Fmt) (w : Word) : fitsFmt f (truncFmt f w) = true := by
  have h2 := flen_le f
  have h3 : 0 < 2 ^ f.flen := Nat.two_pow_pos _
  unfold fitsFmt truncFmt
  rw [BitVec.toNat_ofNat]
  simp only [decide_eq_true_eq]
  exact Nat.lt_of_le_of_lt (Nat.mod_le _ _) (Nat.mod_lt _ h3)

/-- What a word unpacks to, by its magnitude bits. -/
theorem unpack_cases (f : Fmt) (w : Word) :
    (isNaN f w = true ∧ unpack f w = .nan) ∨
    (isInf f w = true ∧ unpack f w = .inf (signOf f w)) ∨
    (isFinite f w = true ∧ unpack f w = .fin (signOf f w) (magOf f (magBits f w))) := by
  unfold unpack isNaN isInf isFinite
  rcases Nat.lt_trichotomy (magBits f w) f.infBits with h | h | h
  · exact .inr (.inr ⟨by simpa using h, by rw [if_neg (by omega), if_neg (by omega)]⟩)
  · exact .inr (.inl ⟨by simpa using h, by rw [if_neg (by omega), if_pos h]⟩)
  · exact .inl ⟨by simpa using h, by rw [if_pos h]⟩

theorem unpack_eq_nan_iff (f : Fmt) (w : Word) : unpack f w = .nan ↔ isNaN f w = true := by
  unfold unpack isNaN
  split
  · simp_all
  · split <;> simp_all

/-- Every sum has FLEN bits. -/
theorem fits_addFp (f : Fmt) (d : Word) (x y : Fp) : fitsFmt f (addFp f d x y) = true := by
  unfold addFp
  split <;> (try split) <;> (try split) <;> (try split) <;>
    simp only [fits_quietNaN, fits_roundWord, fits_infWord, fits_zeroWord]

theorem fits_mulFp (f : Fmt) (d : Word) (x y : Fp) : fitsFmt f (mulFp f d x y) = true := by
  unfold mulFp
  split <;> (try split) <;> simp only [fits_quietNaN, fits_roundWord, fits_infWord]

theorem fits_divFp (f : Fmt) (d : Word) (x y : Fp) : fitsFmt f (divFp f d x y) = true := by
  unfold divFp
  split <;> (try split) <;> (try split) <;>
    simp only [fits_quietNaN, fits_roundWord, fits_infWord, fits_zeroWord]

theorem fits_fadd (f : Fmt) (d a b : Word) : fitsFmt f (fadd f d a b) = true := fits_addFp f d _ _

theorem fits_fsub (f : Fmt) (d a b : Word) : fitsFmt f (fsub f d a b) = true := fits_addFp f d _ _

theorem fits_fmul (f : Fmt) (d a b : Word) : fitsFmt f (fmul f d a b) = true := fits_mulFp f d _ _

theorem fits_fdiv (f : Fmt) (d a b : Word) : fitsFmt f (fdiv f d a b) = true := fits_divFp f d _ _

/-- A sum draws a NaN or does not look at its draw. -/
theorem addFp_draw (f : Fmt) (x y : Fp) :
    (∀ d, addFp f d x y = quietNaN f d) ∨ ∃ w, isNaN f w = false ∧ ∀ d, addFp f d x y = w := by
  unfold addFp
  rcases x with _ | s | ⟨s, m⟩ <;> rcases y with _ | t | ⟨t, n⟩ <;> dsimp only
  case inf.inf =>
    split
    · exact .inr ⟨_, isNaN_infWord f s, fun _ => rfl⟩
    · exact .inl fun _ => rfl
  case inf.fin => exact .inr ⟨_, isNaN_infWord f s, fun _ => rfl⟩
  case fin.inf => exact .inr ⟨_, isNaN_infWord f t, fun _ => rfl⟩
  case fin.fin =>
    split
    · exact .inr ⟨_, isNaN_roundWord f s _ _, fun _ => rfl⟩
    · split
      · exact .inr ⟨_, isNaN_zeroWord f _, fun _ => rfl⟩
      · split
        · exact .inr ⟨_, isNaN_roundWord f s _ _, fun _ => rfl⟩
        · exact .inr ⟨_, isNaN_roundWord f t _ _, fun _ => rfl⟩
  all_goals exact .inl fun _ => rfl

/-- A product draws a NaN or does not look at its draw. -/
theorem mulFp_draw (f : Fmt) (x y : Fp) :
    (∀ d, mulFp f d x y = quietNaN f d) ∨ ∃ w, isNaN f w = false ∧ ∀ d, mulFp f d x y = w := by
  unfold mulFp
  rcases x with _ | s | ⟨s, m⟩ <;> rcases y with _ | t | ⟨t, n⟩ <;> dsimp only
  case inf.inf => exact .inr ⟨_, isNaN_infWord f _, fun _ => rfl⟩
  case inf.fin =>
    split
    · exact .inl fun _ => rfl
    · exact .inr ⟨_, isNaN_infWord f _, fun _ => rfl⟩
  case fin.inf =>
    split
    · exact .inl fun _ => rfl
    · exact .inr ⟨_, isNaN_infWord f _, fun _ => rfl⟩
  case fin.fin => exact .inr ⟨_, isNaN_roundWord f _ _ _, fun _ => rfl⟩
  all_goals exact .inl fun _ => rfl

/-- A quotient draws a NaN or does not look at its draw. -/
theorem divFp_draw (f : Fmt) (x y : Fp) :
    (∀ d, divFp f d x y = quietNaN f d) ∨ ∃ w, isNaN f w = false ∧ ∀ d, divFp f d x y = w := by
  unfold divFp
  rcases x with _ | s | ⟨s, m⟩ <;> rcases y with _ | t | ⟨t, n⟩ <;> dsimp only
  case inf.fin => exact .inr ⟨_, isNaN_infWord f _, fun _ => rfl⟩
  case fin.inf => exact .inr ⟨_, isNaN_zeroWord f _, fun _ => rfl⟩
  case fin.fin =>
    split
    · split
      · exact .inl fun _ => rfl
      · exact .inr ⟨_, isNaN_infWord f _, fun _ => rfl⟩
    · exact .inr ⟨_, isNaN_roundWord f _ _ _, fun _ => rfl⟩
  all_goals exact .inl fun _ => rfl

end Sys2Proof.Machine
end

