-- ==== Sys2Proof/Laws/Datapath.lean ====
section
/-! SUPPORT. The width of what the datapath functions return, and that the primitives do not tell two NaNs apart
(40_scalar_biquad.md R102). -/

namespace Sys2Proof.Machine

/-- Every output sample has FLEN bits. -/
theorem fits_bq (f : Fmt) (d : Nat) (k : Coeffs) (h : Hist) (x : Word) : fitsFmt f (bq f d k h x) = true :=
  fits_fsub f _ _ _

/-- Every quotient has FLEN bits. -/
theorem coeffsFit_quotients (f : Fmt) (d : Nat) (r : Raw) : coeffsFit f (quotients f d r) = true := by
  simp only [coeffsFit, quotients, fits_fdiv, Bool.and_self]

theorem sameValue_iff (f : Fmt) (a b : Word) :
    sameValue f a b = true ↔ a = b ∨ (isNaN f a = true ∧ isNaN f b = true) := by
  simp [sameValue]

/-- Values that agree up to NaN sign and payload unpack to the same value. -/
theorem unpack_eq_of_sameValue {f : Fmt} {a b : Word} (h : sameValue f a b = true) : unpack f a = unpack f b := by
  rcases (sameValue_iff f a b).1 h with rfl | ⟨ha, hb⟩
  · rfl
  · rw [(unpack_eq_nan_iff f a).2 ha, (unpack_eq_nan_iff f b).2 hb]

/-- Two draws of one operation agree up to NaN sign and payload. -/
theorem sameValue_of_draw {f : Fmt} {op : Word → Word}
    (h : (∀ d, op d = quietNaN f d) ∨ ∃ w, isNaN f w = false ∧ ∀ d, op d = w) (d e : Word) :
    sameValue f (op d) (op e) = true := by
  rw [sameValue_iff]
  rcases h with h | ⟨w, _, h⟩
  · exact .inr ⟨by rw [h]; exact isNaN_quietNaN f d, by rw [h]; exact isNaN_quietNaN f e⟩
  · exact .inl (by rw [h, h])

theorem sameValue_fadd {f : Fmt} {a a' b b' : Word} (d e : Word) (ha : sameValue f a a' = true)
    (hb : sameValue f b b' = true) : sameValue f (fadd f d a b) (fadd f e a' b') = true := by
  unfold fadd
  rw [unpack_eq_of_sameValue ha, unpack_eq_of_sameValue hb]
  exact sameValue_of_draw (op := fun d => addFp f d _ _) (addFp_draw f _ _) d e

theorem sameValue_fsub {f : Fmt} {a a' b b' : Word} (d e : Word) (ha : sameValue f a a' = true)
    (hb : sameValue f b b' = true) : sameValue f (fsub f d a b) (fsub f e a' b') = true := by
  unfold fsub
  rw [unpack_eq_of_sameValue ha, unpack_eq_of_sameValue hb]
  exact sameValue_of_draw (op := fun d => addFp f d _ _) (addFp_draw f _ _) d e

theorem sameValue_fmul {f : Fmt} {a a' b b' : Word} (d e : Word) (ha : sameValue f a a' = true)
    (hb : sameValue f b b' = true) : sameValue f (fmul f d a b) (fmul f e a' b') = true := by
  unfold fmul
  rw [unpack_eq_of_sameValue ha, unpack_eq_of_sameValue hb]
  exact sameValue_of_draw (op := fun d => mulFp f d _ _) (mulFp_draw f _ _) d e

theorem sameValue_fdiv {f : Fmt} {a a' b b' : Word} (d e : Word) (ha : sameValue f a a' = true)
    (hb : sameValue f b b' = true) : sameValue f (fdiv f d a b) (fdiv f e a' b') = true := by
  unfold fdiv
  rw [unpack_eq_of_sameValue ha, unpack_eq_of_sameValue hb]
  exact sameValue_of_draw (op := fun d => divFp f d _ _) (divFp_draw f _ _) d e

end Sys2Proof.Machine
end

