-- ==== Sys2Proof/Laws/Decode.lean ====
section
/-! SUPPORT. The fields of an encoded command (30_encoding.md R71). -/

namespace Sys2Proof

theorem Instr.opc_lt (i : Instr) : i.opc < 256 := by cases i <;> simp [Instr.opc]

theorem Instr.laneOperand_lt {i : Instr} (h : i.wf = true) : i.laneOperand < 65536 := by
  cases i <;> simp_all [Instr.wf, Instr.laneOperand]

/-- The number an encoded well-formed command is. -/
theorem encode_toNat {i : Instr} (h : i.wf = true) : (encode i).toNat = i.opc + 65536 * i.laneOperand := by
  have h1 := i.opc_lt
  have h2 := Instr.laneOperand_lt h
  unfold encode
  rw [BitVec.toNat_ofNat]
  exact Nat.mod_eq_of_lt (by omega)

theorem opcField_encode {i : Instr} (h : i.wf = true) : opcField (encode i) = i.opc := by
  have h1 := i.opc_lt
  unfold opcField; rw [encode_toNat h]; omega

theorem rsvField_encode {i : Instr} (h : i.wf = true) : rsvField (encode i) = 0 := by
  have h1 := i.opc_lt
  unfold rsvField; rw [encode_toNat h]; omega

theorem laneField_encode {i : Instr} (h : i.wf = true) : laneField (encode i) = i.laneOperand := by
  have h1 := i.opc_lt
  unfold laneField; rw [encode_toNat h]; omega

/-- A command word is its three fields put together. -/
theorem word_fields (w : CmdWord) : w.toNat = opcField w + 256 * rsvField w + 65536 * laneField w := by
  unfold opcField rsvField laneField
  omega

theorem laneField_lt (w : CmdWord) : laneField w < 65536 := by
  have := w.isLt
  unfold laneField
  omega

/-- What the opcode map answers. -/
theorem opcodeMap_some {opc lane : Nat} {i : Instr} (h : opcodeMap opc lane = some i) :
    i.opc = opc ∧ (i = .engSetcLane lane ∨ (opc ≠ 2 ∧ i.laneOperand = 0)) := by
  unfold opcodeMap at h
  split at h <;> cases h <;> simp [Instr.opc, Instr.laneOperand]

/-- The opcode map answers for exactly the seven opcodes of 30_encoding.md R76. -/
theorem opcodeMap_none (opc lane : Nat) :
    opcodeMap opc lane = none ↔ opc ∉ [0x01, 0x02, 0x03, 0x04, 0x11, 0x12, 0x13] := by
  unfold opcodeMap
  split <;> simp_all

end Sys2Proof
end

