-- ==== Sys2Proof/Laws/Engine.lean ====
section
/-! SUPPORT. The partition of the lanes into batches and a remainder, and the W-wide operations lane by lane
(41_parallel_engine.md R149, R150). -/

namespace Sys2Proof.Machine

/-- The batches one after the other are the batched lanes. -/
theorem batches_flatten (n w : Nat) : (batches n w).flatten = List.range (batchedLanes n w) := by
  have key : ∀ q : Nat, ((List.range q).map fun b => (List.range w).map fun j => b * w + j).flatten = List.range (q * w) := by
    intro q
    induction q with
    | zero => simp
    | succ q ih =>
      rw [List.range_succ, List.map_append, List.flatten_append, ih, Nat.succ_mul, List.range_add]
      simp
  unfold batches
  rw [key, Nat.div_mul_cancel]
  exact Nat.dvd_sub_mod n

theorem batchedLanes_le (n w : Nat) : batchedLanes n w ≤ n := Nat.sub_le _ _

/-- The batched lanes and then the remainder lanes are all lanes, in order. -/
theorem lanes_partition (n w : Nat) : (batches n w).flatten ++ remainderLanes n w = List.range n := by
  rw [batches_flatten]
  unfold remainderLanes
  rw [← List.range_add, Nat.add_sub_cancel' (batchedLanes_le n w)]

/-- Where a batch gives what its lanes give one by one, the partition does not show. -/
theorem overLanes_eq_map {α : Type} (n w : Nat) (vec : List Nat → List α) (scal : Nat → α)
    (h : ∀ is, vec is = is.map scal) : overLanes n w vec scal = (List.range n).map scal := by
  unfold overLanes
  rw [← lanes_partition n w, List.map_append, funext h, List.flatMap_def, List.map_flatten]

/-- A W-wide operation is its scalar operation in every element position. -/
theorem vecOp_map (op : Nat → Word → Word → Word) (is : List Nat) (g h : Nat → Word) :
    vecOp op is (is.map g) (is.map h) = is.map fun i => op i (g i) (h i) := by
  unfold vecOp
  induction is with
  | nil => rfl
  | cons i is ih => simpa using ih

/-- The W-wide mux is the mux of every lane. -/
theorem vecSpm_map (sel : SpmSel) (is : List Nat) (h : Nat → Hist) (x y : Nat → Word) :
    vecSpm sel (is.map h) (is.map x) (is.map y) = is.map fun i => spm sel (h i) (x i) (y i) := by
  unfold vecSpm
  induction is with
  | nil => rfl
  | cons i is ih => simpa using ih

/-- The batched recurrence is BQ in every element position, operation by operation (41_parallel_engine.md R150). -/
theorem vecBq_map (s : State) (is : List Nat) (x : Nat → Word) :
    vecBq s is (is.map x) =
      is.map fun i => bq s.params.fmt (laneDraw s i) (laneCoeffs s.eng.k i) (laneHist s.eng.h i) (x i) := by
  simp only [vecBq, List.map_map, vecOp_map]
  rfl

/-- A batch of ENG.PROCESS is its lanes one by one (41_parallel_engine.md R150). -/
theorem processBatch_map (s : State) (is : List Nat) : processBatch s is = is.map (processLane s) := by
  unfold processBatch
  simp only [vecBq_map, vecSpm_map]
  induction is with
  | nil => rfl
  | cons i is ih => simpa [processLane] using ih

/-- A batch of ENG.RESET is its lanes one by one (41_parallel_engine.md R160). -/
theorem clearBatch_map (s : State) (is : List Nat) : clearBatch s is = is.map (clearLane s) := by
  unfold clearBatch
  rw [vecSpm_map]
  rfl

/-- The history files of N lanes cleared are N zeros each. -/
theorem histFiles_clearLane (s : State) (n : Nat) :
    histFiles ((List.range n).map (clearLane s)) = { x1 := zeros n, x2 := zeros n, y1 := zeros n, y2 := zeros n } := by
  simp only [histFiles, List.map_map, zeros, EngHist.mk.injEq, List.eq_replicate_iff]
  simp [clearLane, spm]

/-- Lane `i`'s history in files built lane by lane. -/
theorem laneHist_histFiles {n i : Nat} (g : Nat → Hist) (hi : i < n) :
    laneHist (histFiles ((List.range n).map g)) i = g i := by
  simp [laneHist, histFiles, hi]

/-- Lane `j`'s coefficients after lane `i`'s are written. -/
theorem laneCoeffs_setLane_ne (e : EngCoeffs) {i j : Nat} (k : Coeffs) (h : j ≠ i) :
    laneCoeffs (setLane e i k) j = laneCoeffs e j := by
  simp [laneCoeffs, setLane, h.symm]

/-- Every lane's coefficients after a broadcast. -/
theorem laneCoeffs_broadcast {n i : Nat} (k : Coeffs) (hi : i < n) : laneCoeffs (broadcast n k) i = k := by
  simp [laneCoeffs, broadcast, hi]

end Sys2Proof.Machine
end

