-- ==== Sys2Proof/Laws/State.lean ====
section
/-! SUPPORT. The projections of the named state updates: one lemma per field per update. -/

namespace Sys2Proof.Machine

@[simp] theorem setUniform_params (b : Bool) (s : State) : (setUniform b s).params = s.params := rfl
@[simp] theorem setUniform_eng_k (b : Bool) (s : State) : (setUniform b s).eng.k = s.eng.k := rfl
@[simp] theorem setUniform_eng_h (b : Bool) (s : State) : (setUniform b s).eng.h = s.eng.h := rfl
@[simp] theorem setUniform_eng_scr (b : Bool) (s : State) : (setUniform b s).eng.scr = s.eng.scr := rfl
@[simp] theorem setUniform_eng_uniform (b : Bool) (s : State) : (setUniform b s).eng.uniform = b := rfl
@[simp] theorem setUniform_sb (b : Bool) (s : State) : (setUniform b s).sb = s.sb := rfl
@[simp] theorem setUniform_err (b : Bool) (s : State) : (setUniform b s).err = s.err := rfl
@[simp] theorem setUniform_cause (b : Bool) (s : State) : (setUniform b s).cause = s.cause := rfl
@[simp] theorem setUniform_cdata (b : Bool) (s : State) : (setUniform b s).cdata = s.cdata := rfl
@[simp] theorem setUniform_sdata (b : Bool) (s : State) : (setUniform b s).sdata = s.sdata := rfl
@[simp] theorem setUniform_vbuf (b : Bool) (s : State) : (setUniform b s).vbuf = s.vbuf := rfl
@[simp] theorem setUniform_inbox (b : Bool) (s : State) : (setUniform b s).inbox = s.inbox := rfl
@[simp] theorem setUniform_readouts (b : Bool) (s : State) : (setUniform b s).readouts = s.readouts := rfl
@[simp] theorem setUniform_draws (b : Bool) (s : State) : (setUniform b s).draws = s.draws := rfl

@[simp] theorem storeSb_params (k : Coeffs) (s : State) : (storeSb k s).params = s.params := rfl
@[simp] theorem storeSb_eng (k : Coeffs) (s : State) : (storeSb k s).eng = s.eng := rfl
@[simp] theorem storeSb_sb_k (k : Coeffs) (s : State) : (storeSb k s).sb.k = k := rfl
@[simp] theorem storeSb_sb_h (k : Coeffs) (s : State) : (storeSb k s).sb.h = s.sb.h := rfl
@[simp] theorem storeSb_err (k : Coeffs) (s : State) : (storeSb k s).err = s.err := rfl
@[simp] theorem storeSb_cause (k : Coeffs) (s : State) : (storeSb k s).cause = s.cause := rfl
@[simp] theorem storeSb_cdata (k : Coeffs) (s : State) : (storeSb k s).cdata = s.cdata := rfl
@[simp] theorem storeSb_sdata (k : Coeffs) (s : State) : (storeSb k s).sdata = s.sdata := rfl
@[simp] theorem storeSb_vbuf (k : Coeffs) (s : State) : (storeSb k s).vbuf = s.vbuf := rfl
@[simp] theorem storeSb_inbox (k : Coeffs) (s : State) : (storeSb k s).inbox = s.inbox := rfl
@[simp] theorem storeSb_readouts (k : Coeffs) (s : State) : (storeSb k s).readouts = s.readouts := rfl
@[simp] theorem storeSb_draws (k : Coeffs) (s : State) : (storeSb k s).draws = s.draws := rfl

@[simp] theorem storeAll_params (k : Coeffs) (s : State) : (storeAll k s).params = s.params := rfl
@[simp] theorem storeAll_eng_k (k : Coeffs) (s : State) : (storeAll k s).eng.k = broadcast s.params.n k := rfl
@[simp] theorem storeAll_eng_h (k : Coeffs) (s : State) : (storeAll k s).eng.h = s.eng.h := rfl
@[simp] theorem storeAll_eng_scr (k : Coeffs) (s : State) : (storeAll k s).eng.scr = s.eng.scr := rfl
@[simp] theorem storeAll_eng_uniform (k : Coeffs) (s : State) : (storeAll k s).eng.uniform = true := rfl
@[simp] theorem storeAll_sb (k : Coeffs) (s : State) : (storeAll k s).sb = s.sb := rfl
@[simp] theorem storeAll_err (k : Coeffs) (s : State) : (storeAll k s).err = s.err := rfl
@[simp] theorem storeAll_cause (k : Coeffs) (s : State) : (storeAll k s).cause = s.cause := rfl
@[simp] theorem storeAll_cdata (k : Coeffs) (s : State) : (storeAll k s).cdata = s.cdata := rfl
@[simp] theorem storeAll_sdata (k : Coeffs) (s : State) : (storeAll k s).sdata = s.sdata := rfl
@[simp] theorem storeAll_vbuf (k : Coeffs) (s : State) : (storeAll k s).vbuf = s.vbuf := rfl
@[simp] theorem storeAll_inbox (k : Coeffs) (s : State) : (storeAll k s).inbox = s.inbox := rfl
@[simp] theorem storeAll_readouts (k : Coeffs) (s : State) : (storeAll k s).readouts = s.readouts := rfl
@[simp] theorem storeAll_draws (k : Coeffs) (s : State) : (storeAll k s).draws = s.draws := rfl

@[simp] theorem storeLane_params (l : Nat) (k : Coeffs) (s : State) : (storeLane l k s).params = s.params := rfl
@[simp] theorem storeLane_eng_k (l : Nat) (k : Coeffs) (s : State) : (storeLane l k s).eng.k = setLane s.eng.k l k := rfl
@[simp] theorem storeLane_eng_h (l : Nat) (k : Coeffs) (s : State) : (storeLane l k s).eng.h = s.eng.h := rfl
@[simp] theorem storeLane_eng_scr (l : Nat) (k : Coeffs) (s : State) : (storeLane l k s).eng.scr = s.eng.scr := rfl
@[simp] theorem storeLane_eng_uniform (l : Nat) (k : Coeffs) (s : State) : (storeLane l k s).eng.uniform = false := rfl
@[simp] theorem storeLane_sb (l : Nat) (k : Coeffs) (s : State) : (storeLane l k s).sb = s.sb := rfl
@[simp] theorem storeLane_err (l : Nat) (k : Coeffs) (s : State) : (storeLane l k s).err = s.err := rfl
@[simp] theorem storeLane_cause (l : Nat) (k : Coeffs) (s : State) : (storeLane l k s).cause = s.cause := rfl
@[simp] theorem storeLane_cdata (l : Nat) (k : Coeffs) (s : State) : (storeLane l k s).cdata = s.cdata := rfl
@[simp] theorem storeLane_sdata (l : Nat) (k : Coeffs) (s : State) : (storeLane l k s).sdata = s.sdata := rfl
@[simp] theorem storeLane_vbuf (l : Nat) (k : Coeffs) (s : State) : (storeLane l k s).vbuf = s.vbuf := rfl
@[simp] theorem storeLane_inbox (l : Nat) (k : Coeffs) (s : State) : (storeLane l k s).inbox = s.inbox := rfl
@[simp] theorem storeLane_readouts (l : Nat) (k : Coeffs) (s : State) : (storeLane l k s).readouts = s.readouts := rfl
@[simp] theorem storeLane_draws (l : Nat) (k : Coeffs) (s : State) : (storeLane l k s).draws = s.draws := rfl

@[simp] theorem record_params (r : Readout) (s : State) : (record r s).params = s.params := rfl
@[simp] theorem record_eng (r : Readout) (s : State) : (record r s).eng = s.eng := rfl
@[simp] theorem record_sb (r : Readout) (s : State) : (record r s).sb = s.sb := rfl
@[simp] theorem record_err (r : Readout) (s : State) : (record r s).err = s.err := rfl
@[simp] theorem record_cause (r : Readout) (s : State) : (record r s).cause = s.cause := rfl
@[simp] theorem record_cdata (r : Readout) (s : State) : (record r s).cdata = s.cdata := rfl
@[simp] theorem record_sdata (r : Readout) (s : State) : (record r s).sdata = s.sdata := rfl
@[simp] theorem record_vbuf (r : Readout) (s : State) : (record r s).vbuf = s.vbuf := rfl
@[simp] theorem record_inbox (r : Readout) (s : State) : (record r s).inbox = s.inbox := rfl
@[simp] theorem record_draws (r : Readout) (s : State) : (record r s).draws = s.draws := rfl
@[simp] theorem record_readouts (r : Readout) (s : State) : (record r s).readouts = s.readouts ++ [r] := rfl

@[simp] theorem writePort_params (s : State) (p : Port) (v : Word) : (writePort s p v).params = s.params := by cases p <;> rfl
@[simp] theorem writePort_eng (s : State) (p : Port) (v : Word) : (writePort s p v).eng = s.eng := by cases p <;> rfl
@[simp] theorem writePort_sb (s : State) (p : Port) (v : Word) : (writePort s p v).sb = s.sb := by cases p <;> rfl
@[simp] theorem writePort_err (s : State) (p : Port) (v : Word) : (writePort s p v).err = s.err := by cases p <;> rfl
@[simp] theorem writePort_cause (s : State) (p : Port) (v : Word) : (writePort s p v).cause = s.cause := by cases p <;> rfl
@[simp] theorem writePort_inbox (s : State) (p : Port) (v : Word) : (writePort s p v).inbox = s.inbox := by cases p <;> rfl
@[simp] theorem writePort_readouts (s : State) (p : Port) (v : Word) : (writePort s p v).readouts = s.readouts := by cases p <;> rfl
@[simp] theorem writePort_draws (s : State) (p : Port) (v : Word) : (writePort s p v).draws = s.draws := by cases p <;> rfl

@[simp] theorem resetCore_params (s : State) : (resetCore s).params = s.params := rfl
@[simp] theorem resetCore_err (s : State) : (resetCore s).err = false := rfl
@[simp] theorem resetCore_cause (s : State) : (resetCore s).cause = .none := rfl
@[simp] theorem resetCore_eng (s : State) : (resetCore s).eng = engReset s.params.n := rfl
@[simp] theorem resetCore_sb (s : State) : (resetCore s).sb = sbReset := rfl
@[simp] theorem resetCore_inbox (s : State) : (resetCore s).inbox = s.inbox := rfl
@[simp] theorem resetCore_readouts (s : State) : (resetCore s).readouts = s.readouts := rfl

@[simp] theorem pushCommand_inbox (w : CmdWord) (s : State) : (pushCommand w s).inbox = .command w :: s.inbox := rfl
@[simp] theorem pushCommand_params (w : CmdWord) (s : State) : (pushCommand w s).params = s.params := rfl

/-- Raising a fault on a FAULTED core changes nothing (60_exceptions.md R187). -/
theorem raiseFault_faulted {s : State} (h : s.err = true) (c : Cause) : raiseFault c s = s := by simp [raiseFault, h]

/-- Raising a fault writes ERR and CAUSE (60_exceptions.md R186). -/
theorem raiseFault_fresh {s : State} (h : s.err = false) (c : Cause) :
    raiseFault c s = { s with err := true, cause := c } := by simp [raiseFault, h]

/-- Reading one element after writing one (20_memory.md R52). -/
theorem readPort_writePort (s : State) (p q : Port) (v : Word) (hv : s.vbuf.length = s.params.n)
    (hp : portExists s p = true) : readPort (writePort s p v) q = if q = p then v else readPort s q := by
  rcases p with j | _ | i
  · simp only [portExists, decide_eq_true_eq] at hp
    rcases q with j' | _ | i'
    · have : j = 0 ∨ j = 1 ∨ j = 2 ∨ j = 3 ∨ j = 4 ∨ j = 5 := by omega
      rcases j' with _ | _ | _ | _ | _ | _ | j' <;> rcases this with rfl | rfl | rfl | rfl | rfl | rfl <;>
        simp [readPort, writePort, Cdata.set]
    · simp [readPort, writePort]
    · simp [readPort, writePort]
  · rcases q with j' | _ | i'
    · rcases j' with _ | _ | _ | _ | _ | _ | j' <;> simp [readPort, writePort]
    · simp [readPort, writePort]
    · simp [readPort, writePort]
  · simp only [portExists, decide_eq_true_eq] at hp
    rcases q with j' | _ | i'
    · rcases j' with _ | _ | _ | _ | _ | _ | j' <;> simp [readPort, writePort]
    · simp [readPort, writePort]
    · by_cases h : i' = i
      · subst h; simp [readPort, writePort, hv, hp]
      · simp [readPort, writePort, h, Ne.symm h]

end Sys2Proof.Machine
end

