-- ==== Sys2Proof/Laws/Ops.lean ====
section
/-! SUPPORT. What the shared operations, a command and a step can do, said once. -/

namespace Sys2Proof.Machine

theorem unlessFaulted_faulted {s : State} (h : s.err = true) (t : State) : unlessFaulted s t = .next s := by
  simp [unlessFaulted, h]

theorem unlessFaulted_fresh {s : State} (h : s.err = false) (t : State) : unlessFaulted s t = .next t := by
  simp [unlessFaulted, h]

/-- A command answers a next state: the old one on a FAULTED core, its effect otherwise. -/
theorem unlessFaulted_next (s t : State) : ∃ u, unlessFaulted s t = .next u ∧ u = if s.err then s else t :=
  ⟨if s.err then s else t, by unfold unlessFaulted; split <;> rfl, rfl⟩

/-- NORM faults, with nothing stored, exactly on a degenerate b0; else the five quotients are stored together
(40_scalar_biquad.md R104, R114). -/
theorem withNormalized_cases (s : State) (store : Coeffs → State → State) :
    (degenerate s.params s.cdata.c3 = true ∧ withNormalized s store = raiseFault .degenerateCoefficient s) ∨
    (degenerate s.params s.cdata.c3 = false ∧
      withNormalized s store = store (quotients s.params.fmt s.draws (rawOperand s)) { s with draws := s.draws + 5 }) := by
  have hb : (rawOperand s).b0 = s.cdata.c3 := rfl
  unfold withNormalized normCoeffs
  rw [hb]
  cases h : degenerate s.params s.cdata.c3
  · exact .inr ⟨rfl, rfl⟩
  · exact .inl ⟨rfl, rfl⟩

/-- A FAULTED core executes no command (60_exceptions.md R187). -/
theorem exec_faulted {s : State} (h : s.err = true) (i : Instr) : exec i s = .next s := by
  cases i <;> exact unlessFaulted_faulted h _

/-- Every command answers a next state (70_reset_and_hazards.md R222). -/
theorem exec_next (i : Instr) (s : State) : ∃ t, exec i s = .next t := by
  cases i <;> exact (unlessFaulted_next s _).imp fun _ h => h.1

/-- Every command word answers a next state. -/
theorem issueCommand_next (w : CmdWord) (s : State) : ∃ t, issueCommand w s = .next t := by
  unfold issueCommand
  split
  · exact ⟨_, rfl⟩
  · split
    · exact exec_next _ _
    · exact ⟨_, rfl⟩

/-- What a step can do: idle, or take the host's next action from the inbox and perform it, in a legal configuration. -/
theorem step_cases {s t : State} (h : step s = .next t) :
    s.params.legal = true ∧
      ((s.inbox = [] ∧ t = s) ∨ ∃ a rest, s.inbox = a :: rest ∧ perform a { s with inbox := rest } = .next t) := by
  unfold step at h
  split at h
  · refine ⟨‹_›, ?_⟩
    unfold serveHost at h
    split at h
    · exact .inl ⟨‹_›, by cases h; rfl⟩
    · exact .inr ⟨_, _, ‹_›, h⟩
  · cases h

/-- What an action of the host can do where it answers a next state. -/
theorem perform_cases {a : HostAction} {s t : State} (h : perform a s = .next t) :
    (∃ w, a = .command w ∧ issueCommand w s = .next t) ∨
    (∃ p v, a = .write p v ∧ portExists s p = true ∧ fitsFmt s.params.fmt v = true ∧ t = writePort s p v) ∨
    (∃ p, a = .read p ∧ portExists s p = true ∧ t = record (.element (readPort s p)) s) ∨
    (∃ k, a = .readReg k ∧ t = record (.register (readReg s k)) s) ∨
    (a = .hardReset ∧ t = resetCore s) := by
  cases a with
  | command w => exact .inl ⟨w, rfl, h⟩
  | write p v =>
    simp only [perform, hostWrite] at h
    split at h
    · split at h
      · exact .inr (.inl ⟨p, v, rfl, ‹_›, ‹_›, by cases h; rfl⟩)
      · cases h
    · cases h
  | read p =>
    simp only [perform, hostRead] at h
    split at h
    · exact .inr (.inr (.inl ⟨p, rfl, ‹_›, by cases h; rfl⟩))
    · cases h
  | readReg k => exact .inr (.inr (.inr (.inl ⟨k, rfl, by cases h; rfl⟩)))
  | hardReset => exact .inr (.inr (.inr (.inr ⟨rfl, by cases h; rfl⟩)))

/-- What a command word can do: nothing on a FAULTED core, IllegalCommand, or its command. -/
theorem issueCommand_cases {w : CmdWord} {s t : State} (h : issueCommand w s = .next t) :
    (s.err = true ∧ t = s) ∨
    (s.err = false ∧ (∃ e, decode w = .error e) ∧ t = { s with err := true, cause := .illegalCommand }) ∨
    (s.err = false ∧ ∃ i, decode w = .ok i ∧ exec i s = .next t) := by
  unfold issueCommand at h
  cases he : s.err
  · simp only [he, Bool.false_eq_true, ↓reduceIte] at h
    split at h
    · exact .inr (.inr ⟨rfl, _, ‹_›, h⟩)
    · refine .inr (.inl ⟨rfl, ⟨_, ‹_›⟩, ?_⟩)
      rw [raiseFault_fresh he] at h
      cases h; rfl
  · simp only [he, ↓reduceIte] at h
    exact .inl ⟨rfl, by cases h; rfl⟩

end Sys2Proof.Machine
end

