-- ==== Sys2Proof/Laws/Exec.lean ====
section
/-! SUPPORT. What a command does when it answers a next state, said once for all seven: nothing, a fault, or its effect with ENG's
lanes taken one by one. -/

namespace Sys2Proof.Machine

/-- The state after a command that executes, ENG's lanes one by one. -/
def effect (i : Instr) (s : State) : State :=
  match i with
  | .engSetcAll => storeAll (quotients s.params.fmt s.draws (rawOperand s)) { s with draws := s.draws + 5 }
  | .engSetcLane lane => storeLane lane (quotients s.params.fmt s.draws (rawOperand s)) { s with draws := s.draws + 5 }
  | .engProcess =>
    { s with
      eng := { s.eng with
        h := histFiles ((List.range s.params.n).map fun i => (processLane s i).h)
        scr := (List.range s.params.n).map fun i => (processLane s i).scr }
      vbuf := (List.range s.params.n).map fun i => (processLane s i).y
      draws := s.draws + 9 * s.params.n }
  | .engReset =>
    { s with
      eng := { s.eng with
        h := { x1 := zeros s.params.n, x2 := zeros s.params.n, y1 := zeros s.params.n, y2 := zeros s.params.n }
        scr := zeros s.params.n } }
  | .sbSetc => storeSb (quotients s.params.fmt s.draws (rawOperand s)) { s with draws := s.draws + 5 }
  | .sbProcess =>
    { s with
      sb := { s.sb with h := spm .shift s.sb.h s.sdata (bq s.params.fmt s.draws s.sb.k s.sb.h s.sdata) }
      sdata := bq s.params.fmt s.draws s.sb.k s.sb.h s.sdata
      draws := s.draws + 9 }
  | .sbReset => { s with sb := { s.sb with h := spm .clear s.sb.h plusZero plusZero } }

@[simp] theorem effect_params (i : Instr) (s : State) : (effect i s).params = s.params := by cases i <;> rfl
@[simp] theorem effect_err (i : Instr) (s : State) : (effect i s).err = s.err := by cases i <;> rfl
@[simp] theorem effect_cause (i : Instr) (s : State) : (effect i s).cause = s.cause := by cases i <;> rfl
@[simp] theorem effect_cdata (i : Instr) (s : State) : (effect i s).cdata = s.cdata := by cases i <;> rfl
@[simp] theorem effect_inbox (i : Instr) (s : State) : (effect i s).inbox = s.inbox := by cases i <;> rfl
@[simp] theorem effect_readouts (i : Instr) (s : State) : (effect i s).readouts = s.readouts := by cases i <;> rfl

/-- The command's own checks that fail, and the cause they report (60_exceptions.md R182, R183, R188). -/
def FailsWith (i : Instr) (s : State) (c : Cause) : Prop :=
  (∃ lane, i = .engSetcLane lane ∧ s.params.n ≤ lane ∧ c = .invalidArgument) ∨
  ((i = .engSetcAll ∨ i = .sbSetc ∨ ∃ lane, i = .engSetcLane lane ∧ lane < s.params.n) ∧
    degenerate s.params s.cdata.c3 = true ∧ c = .degenerateCoefficient)

/-- A coefficient command on a core that is not FAULTED, by its b0. -/
theorem unlessFaulted_withNormalized {s t : State} {store : Coeffs → State → State} (he : s.err = false)
    (h : unlessFaulted s (withNormalized s store) = .next t) :
    (degenerate s.params s.cdata.c3 = true ∧ t = { s with err := true, cause := .degenerateCoefficient }) ∨
    (degenerate s.params s.cdata.c3 = false ∧
      t = store (quotients s.params.fmt s.draws (rawOperand s)) { s with draws := s.draws + 5 }) := by
  rw [unlessFaulted_fresh he] at h
  cases h
  rcases withNormalized_cases s store with ⟨hd, hw⟩ | ⟨hd, hw⟩
  · exact .inl ⟨hd, by rw [hw, raiseFault_fresh he]⟩
  · exact .inr ⟨hd, hw⟩

/-- What a command can do: nothing on a FAULTED core; STATUS written and nothing else where one of its checks fails; its effect
where it passes them. -/
theorem exec_cases {i : Instr} {s t : State} (h : exec i s = .next t) :
    (s.err = true ∧ t = s) ∨
    (s.err = false ∧ passesChecks i s = false ∧ ∃ c, FailsWith i s c ∧ t = { s with err := true, cause := c }) ∨
    (s.err = false ∧ passesChecks i s = true ∧ t = effect i s) := by
  cases he : s.err
  case true =>
    rw [exec_faulted he] at h
    exact .inl ⟨rfl, by cases h; rfl⟩
  case false =>
    refine .inr ?_
    cases i with
    | engSetcAll =>
      rcases unlessFaulted_withNormalized he h with ⟨hd, rfl⟩ | ⟨hd, rfl⟩
      · exact .inl ⟨rfl, by simp [passesChecks, hd], _, .inr ⟨.inl rfl, hd, rfl⟩, rfl⟩
      · exact .inr ⟨rfl, by simp [passesChecks, hd], rfl⟩
    | engSetcLane lane =>
      by_cases hl : lane < s.params.n
      · simp only [exec, execEngSetcLane, hl, ↓reduceIte] at h
        rcases unlessFaulted_withNormalized he h with ⟨hd, rfl⟩ | ⟨hd, rfl⟩
        · exact .inl ⟨rfl, by simp [passesChecks, hd], _, .inr ⟨.inr (.inr ⟨lane, rfl, hl⟩), hd, rfl⟩, rfl⟩
        · exact .inr ⟨rfl, by simp [passesChecks, hd, hl], rfl⟩
      · simp only [exec, execEngSetcLane, hl, ↓reduceIte, unlessFaulted_fresh he, raiseFault_fresh he] at h
        cases h
        exact .inl ⟨rfl, by simp [passesChecks, hl], _, .inl ⟨lane, rfl, by omega, rfl⟩, rfl⟩
    | engProcess =>
      simp only [exec, execEngProcess, unlessFaulted_fresh he, overLanes_eq_map _ _ _ _ (processBatch_map s)] at h
      cases h
      refine .inr ⟨rfl, rfl, ?_⟩
      simp only [effect, List.map_map]
      rfl
    | engReset =>
      simp only [exec, execEngReset, unlessFaulted_fresh he, overLanes_eq_map _ _ _ _ (clearBatch_map s),
        overLanes_eq_map _ _ _ (fun _ => plusZero) (fun _ => rfl), histFiles_clearLane] at h
      cases h
      refine .inr ⟨rfl, rfl, ?_⟩
      simp [effect, zeros]
    | sbSetc =>
      rcases unlessFaulted_withNormalized he h with ⟨hd, rfl⟩ | ⟨hd, rfl⟩
      · exact .inl ⟨rfl, by simp [passesChecks, hd], _, .inr ⟨.inr (.inl rfl), hd, rfl⟩, rfl⟩
      · exact .inr ⟨rfl, by simp [passesChecks, hd], rfl⟩
    | sbProcess =>
      simp only [exec, execSbProcess, unlessFaulted_fresh he] at h
      cases h
      exact .inr ⟨rfl, rfl, rfl⟩
    | sbReset =>
      simp only [exec, execSbReset, unlessFaulted_fresh he] at h
      cases h
      exact .inr ⟨rfl, rfl, rfl⟩

/-- No command writes the parameter set. -/
theorem exec_params {i : Instr} {s t : State} (h : exec i s = .next t) : t.params = s.params := by
  rcases exec_cases h with ⟨_, rfl⟩ | ⟨_, _, c, _, rfl⟩ | ⟨_, _, rfl⟩
  · rfl
  · rfl
  · exact effect_params i s

end Sys2Proof.Machine
end

