-- ==== Sys2Proof/Laws/PerInstr.lean ====
section
/-! SUPPORT. Statements made of every command as syntax, one lemma per constructor. -/

namespace Sys2Proof.Laws

/-- OPC has its UNIT and FUNC sub-fields (30_encoding.md R72): the encoded word's UNIT is 1 for the SB commands and 0 for the ENG
commands, and its RSV field is 0. -/
def UnitField.Statement (i : Instr) : Prop :=
  i.wf = true →
    unitField (encode i) = (match i with
      | .sbSetc | .sbProcess | .sbReset => 1
      | .engSetcAll | .engSetcLane _ | .engProcess | .engReset => 0) ∧ rsvField (encode i) = 0

theorem UnitField.engSetcAll : UnitField.Statement .engSetcAll := fun _ => by decide

theorem UnitField.engSetcLane (lane : Nat) : UnitField.Statement (.engSetcLane lane) := fun h => by
  refine ⟨?_, rsvField_encode h⟩
  unfold unitField
  rw [encode_toNat h]
  simp only [Instr.opc, Instr.laneOperand]
  omega

theorem UnitField.engProcess : UnitField.Statement .engProcess := fun _ => by decide

theorem UnitField.engReset : UnitField.Statement .engReset := fun _ => by decide

theorem UnitField.sbSetc : UnitField.Statement .sbSetc := fun _ => by decide

theorem UnitField.sbProcess : UnitField.Statement .sbProcess := fun _ => by decide

theorem UnitField.sbReset : UnitField.Statement .sbReset := fun _ => by decide

end Sys2Proof.Laws
end

