-- ==== Sys2Proof/Laws/Rounding.lean ====
section
/-! SUPPORT. Rounding is exact on the values of the format, and what a word of each kind unpacks to. -/

namespace Sys2Proof.Machine

theorem divNearestEven_mul (q : Nat) {den : Nat} (h : 0 < den) : divNearestEven (q * den) den = q := by
  unfold divNearestEven
  simp [Nat.mul_mod_left, h]

theorem log2_mul_two_pow (m e : Nat) (h : 0 < m) : Nat.log2 (m * 2 ^ e) = Nat.log2 m + e := by
  have he : 0 < 2 ^ e := Nat.two_pow_pos e
  have hm := (Nat.log2_eq_iff (n := m) (k := Nat.log2 m) (by omega)).1 rfl
  rw [Nat.log2_eq_iff (Nat.mul_pos h he).ne', pow_add, show m.log2 + e + 1 = (m.log2 + 1) + e by omega,
    pow_add _ (m.log2 + 1)]
  exact ⟨Nat.mul_le_mul_right _ hm.1, Nat.mul_lt_mul_of_pos_right hm.2 he⟩

/-- A magnitude of the format is rounded to itself. -/
theorem roundMag_magOf (f : Fmt) {b den : Nat} (hd : 0 < den) (hb : b < f.infBits) :
    roundMag f (magOf f b * den) den = b := by
  have hP : 0 < 2 ^ f.fracBits := Nat.two_pow_pos _
  unfold roundMag spacingExp
  rw [Nat.mul_div_cancel _ hd]
  unfold magOf
  split
  · rename_i h
    have hs : Nat.log2 b - f.fracBits = 0 := by
      rcases Nat.eq_zero_or_pos b with rfl | h0
      · simp
      · have := (Nat.log2_lt (by omega)).2 h
        omega
    rw [hs]
    simp [divNearestEven_mul _ hd]
    omega
  · rename_i h
    have hr := Nat.mod_lt b hP
    have hE := Nat.div_add_mod b (2 ^ f.fracBits)
    have hE1 : 1 ≤ b / 2 ^ f.fracBits := (Nat.one_le_div_iff hP).2 (by omega)
    generalize b / 2 ^ f.fracBits = q at *
    generalize b % 2 ^ f.fracBits = r at *
    obtain ⟨t, rfl⟩ : ∃ t, q = t + 1 := ⟨q - 1, by omega⟩
    have hlog : Nat.log2 (2 ^ f.fracBits + r) = f.fracBits := by
      rw [Nat.log2_eq_iff (by omega), pow_succ]
      omega
    rw [Nat.add_sub_cancel, log2_mul_two_pow _ _ (by omega), hlog, Nat.add_sub_cancel_left,
      show (2 ^ f.fracBits + r) * 2 ^ t * den = (2 ^ f.fracBits + r) * (den * 2 ^ t) by ring,
      divNearestEven_mul _ (Nat.mul_pos hd (Nat.two_pow_pos t)),
      show t * 2 ^ f.fracBits + (2 ^ f.fracBits + r) = b by rw [← hE]; ring]
    omega

theorem magOf_eq_zero (f : Fmt) (b : Nat) : magOf f b = 0 ↔ b = 0 := by
  have hP : 0 < 2 ^ f.fracBits := Nat.two_pow_pos _
  unfold magOf
  split
  · rfl
  · have : 0 < (2 ^ f.fracBits + b % 2 ^ f.fracBits) * 2 ^ (b / 2 ^ f.fracBits - 1) := by positivity
    constructor <;> intro h <;> omega

theorem unpack_of_isZero {f : Fmt} {w : Word} (h : isZero f w = true) : unpack f w = .fin (signOf f w) 0 := by
  have hp := infBits_pos f
  simp only [isZero, decide_eq_true_eq] at h
  unfold unpack
  rw [if_neg (by omega), if_neg (by omega), (magOf_eq_zero f _).2 h]

theorem unpack_of_isInf {f : Fmt} {w : Word} (h : isInf f w = true) : unpack f w = .inf (signOf f w) := by
  simp only [isInf, decide_eq_true_eq] at h
  unfold unpack
  rw [if_neg (by omega), if_pos h]

theorem unpack_of_isFinite {f : Fmt} {w : Word} (h : isFinite f w = true) :
    unpack f w = .fin (signOf f w) (magOf f (magBits f w)) := by
  simp only [isFinite, decide_eq_true_eq] at h
  unfold unpack
  rw [if_neg (by omega), if_neg (by omega)]

theorem isInf_infWord (f : Fmt) (neg : Bool) : isInf f (infWord f neg) = true := by
  unfold infWord isInf
  rw [magBits_packBits f _ (infBits_lt_signWeight f)]
  simp

theorem signOf_infWord (f : Fmt) (neg : Bool) : signOf f (infWord f neg) = neg :=
  signOf_packBits f neg (infBits_lt_signWeight f)

/-- A magnitude of 0 is rounded to the zero of its sign. -/
theorem roundWord_zero (f : Fmt) (neg : Bool) {den : Nat} (hd : 0 < den) : roundWord f neg 0 den = zeroWord f neg := by
  have h := roundMag_magOf f hd (infBits_pos f)
  rw [(magOf_eq_zero f 0).2 rfl, Nat.zero_mul] at h
  unfold roundWord zeroWord
  rw [h]

end Sys2Proof.Machine
end

