-- ==== Sys2Proof/Laws/Run.lean ====
section
/-! SUPPORT. Running the core action by action: what one step does with each kind of host action, and how steps chain. -/

namespace Sys2Proof.Machine

/-- The first step of a run goes on to a next state. -/
theorem core_run_next {s t : State} (k : Nat) (h : step s = .next t) :
    Host.Core.run Sys2Proof.core (k + 1) s = Host.Core.run Sys2Proof.core k t := by
  simp only [Host.Core.run]
  have e : Sys2Proof.core.step s = step s := rfl
  rw [e, h]

/-- A run of one or more steps that ends in a next state took a first step and then ran on. -/
theorem core_run_cases {s t : State} {k : Nat} (h : Host.Core.run Sys2Proof.core (k + 1) s = .next t) :
    ∃ u : State, step s = .next u ∧ Host.Core.run Sys2Proof.core k u = .next t := by
  simp only [Host.Core.run] at h
  have e : Sys2Proof.core.step s = step s := rfl
  rw [e] at h
  cases hs : step s with
  | next u => rw [hs] at h; exact ⟨u, rfl, h⟩
  | fault r => cases r
  | refused r => rw [hs] at h; cases h

/-- A step that writes a port element that exists, with a value of the format. -/
theorem step_write {s : State} {p : Port} {v : Word} {rest : List HostAction} (hi : s.inbox = .write p v :: rest)
    (hl : s.params.legal = true) (hp : portExists s p = true) (hv : fitsFmt s.params.fmt v = true) :
    step s = .next (writePort { s with inbox := rest } p v) := by
  have hp' : portExists { s with inbox := rest } p = true := by cases p <;> exact hp
  simp only [step, hl, if_true, serveHost, hi, perform, hostWrite, hp', hv]

/-- A step that reads a port element that exists. -/
theorem step_read {s : State} {p : Port} {rest : List HostAction} (hi : s.inbox = .read p :: rest)
    (hl : s.params.legal = true) (hp : portExists s p = true) :
    step s = .next (record (.element (readPort s p)) { s with inbox := rest }) := by
  have hp' : portExists { s with inbox := rest } p = true := by cases p <;> exact hp
  have hr : readPort { s with inbox := rest } p = readPort s p := by cases p <;> rfl
  simp only [step, hl, if_true, serveHost, hi, perform, hostRead, hp', hr]

/-- A step that is issued a command word. -/
theorem step_command {s : State} {w : CmdWord} {rest : List HostAction} (hi : s.inbox = .command w :: rest)
    (hl : s.params.legal = true) : step s = issueCommand w { s with inbox := rest } := by
  simp only [step, hl, if_true, serveHost, hi, perform]

/-- A step in which the host resets the core. -/
theorem step_hardReset {s : State} {rest : List HostAction} (hi : s.inbox = .hardReset :: rest) (hl : s.params.legal = true) :
    step s = .next (resetCore { s with inbox := rest }) := by
  simp only [step, hl, if_true, serveHost, hi, perform]

end Sys2Proof.Machine
end

