-- ==== Sys2Proof/Tests/Slice0.lean ====
section
/-! SUPPORT. Tests on values written out from the spec (95_test_vectors.md unless said otherwise), and for every statement of
Certificates/Slice0/Obligations.lean that has hypotheses a state and operands that meet them. -/

namespace Sys2Proof.Tests

-- One theorem after another: each thread of the elaborator takes a stack of its own, and there are many small theorems here.
set_option Elab.async false

open Sys2Proof Sys2Proof.Machine

/-! ### Helpers -/

/-- A core as hard reset leaves it, with ports of +0 in place of draws. -/
def fresh (p : Params) : State :=
  { params := p
    eng := engReset p.n
    sb := sbReset
    err := false
    cause := .none
    cdata := { c0 := 0, c1 := 0, c2 := 0, c3 := 0, c4 := 0, c5 := 0 }
    sdata := 0
    vbuf := zeros p.n
    inbox := []
    readouts := []
    draws := 0 }

/-- The instance of program P1. -/
def p1 : Params := { n := 3, w := 2, fmt := .binary32, policy := .propagate }

/-- The same instance under FAULT. -/
def p1Fault : Params := { p1 with policy := .fault }

/-- The raw set of V1, binary32: 2, 4, 2, 2, -1, 0.5. -/
def cdataV1 : Cdata :=
  { c0 := 0x40000000, c1 := 0x40800000, c2 := 0x40000000, c3 := 0x40000000, c4 := 0xBF800000, c5 := 0x3F000000 }

/-- The stored set of V1, binary32: 1, 2, 1, -0.5, 0.25. -/
def storedV1 : Coeffs := { a0 := 0x3F800000, a1 := 0x40000000, a2 := 0x3F800000, b1 := 0xBF000000, b2 := 0x3E800000 }

/-- P1's instance with V1's raw set on CDATA. -/
def configured : State := { fresh p1 with cdata := cdataV1 }

/-- P1's instance under FAULT, b0 = -0. -/
def minusZeroB0 : State := { fresh p1Fault with cdata := { cdataV1 with c3 := 0x80000000 } }

/-- The state before the step of V13. -/
def beforeV13 : State :=
  { configured with
    eng := { configured.eng with
      k := broadcast 3 storedV1
      h :=
        { x1 := [0x3F800000, 0, 0xBF800000], x2 := [0, 0, 0x40000000], y1 := [0x3F800000, 0, 0x3F000000],
          y2 := [0, 0, 0x3E800000] }
      scr := [0x3F800000, 0, 0xBF800000]
      uniform := true }
    vbuf := [0, 0x3F800000, 0x40800000] }

/-- A FAULTED core: V18's STATUS 0x00000121. -/
def faulted : State := { beforeV13 with err := true, cause := .invalidArgument }

/-- SB with the set of V10, binary64: 0.1, 0.2, 0.3, 0, 0 and history 1, 1, 0, 0; input 1. -/
def beforeV10 : State :=
  { fresh { p1 with fmt := .binary64 } with
    sb :=
      { k := { a0 := 0x3FB999999999999A, a1 := 0x3FC999999999999A, a2 := 0x3FD3333333333333, b1 := 0, b2 := 0 }
        h := { x1 := 0x3FF0000000000000, x2 := 0x3FF0000000000000, y1 := 0, y2 := 0 } }
    sdata := 0x3FF0000000000000 }

/-- What holds of the next state an outcome gives. -/
def leads (o : Out) (check : State → Bool) : Bool :=
  match o with
  | .next t => check t
  | .fault _ => false
  | .refused _ => false

/-- An outcome is this refusal. -/
def refuses (o : Out) (r : Refusal) : Bool :=
  match o with
  | .next _ => false
  | .fault _ => false
  | .refused q => decide (q = r)

/-- A text in braces. -/
def braced (text : String) : List Char := Char.ofNat 123 :: text.toList ++ [Char.ofNat 125]

/-! ### Well-formedness and decoding -/

/-- 30_encoding.md R74: LANE has 16 bits. -/
theorem test_lane_65536_is_ill_formed : (Instr.engSetcLane 65536).wf = false ∧ (Instr.engSetcLane 65535).wf = true := by decide

/-- R71, R76: OPC = 0000 0010, RSV = 0, LANE = 3. -/
theorem test_decode_engSetcLane_bits :
    decode (0b0000000000000011#16 ++ 0b00000000#8 ++ 0b00000010#8) = .ok (.engSetcLane 3) := by decide +kernel

theorem test_decode_engSetcAll_bits :
    decode (0b0000000000000000#16 ++ 0b00000000#8 ++ 0b00000001#8) = .ok .engSetcAll := by decide +kernel

theorem test_decode_engProcess_bits :
    decode (0b0000000000000000#16 ++ 0b00000000#8 ++ 0b00000011#8) = .ok .engProcess := by decide +kernel

theorem test_decode_engReset_bits :
    decode (0b0000000000000000#16 ++ 0b00000000#8 ++ 0b00000100#8) = .ok .engReset := by decide +kernel

theorem test_decode_sbSetc_bits :
    decode (0b0000000000000000#16 ++ 0b00000000#8 ++ 0b00010001#8) = .ok .sbSetc := by decide +kernel

theorem test_decode_sbProcess_bits :
    decode (0b0000000000000000#16 ++ 0b00000000#8 ++ 0b00010010#8) = .ok .sbProcess := by decide +kernel

theorem test_decode_sbReset_bits :
    decode (0b0000000000000000#16 ++ 0b00000000#8 ++ 0b00010011#8) = .ok .sbReset := by decide +kernel

/-- V17: undefined OPC values. -/
theorem test_decode_undefined_opcodes :
    [(0x00000000 : CmdWord), 0x00000005, 0x00000010, 0x00000014, 0x00000021, 0x000000FF].all
      (fun w => decide (decode w = .error .opcodeUndefined)) = true := by decide +kernel

/-- V17: RSV before LANE, and LANE on commands that have none. -/
theorem test_decode_reserved_fields :
    decode 0x00000104 = .error .reservedNonZero ∧ decode 0x0001FF02 = .error .reservedNonZero ∧
    decode 0x00010003 = .error .laneNonZero ∧ decode 0x80000011 = .error .laneNonZero := by decide +kernel

/-- 30_encoding.md R82: `ENG.SETC.LANE 3` is the word 0x00030002, encoded and in the table's numbering. -/
theorem test_encode_engSetcLane : encode (.engSetcLane 3) = 0x00030002 ∧
    decodeTableWord 32 0x00030002 = some (.engSetcLane 3) ∧ decodeTableWord 32 0x00000005 = none := by decide +kernel

/-! ### The IEEE 754 primitives -/

/-- V2. -/
theorem test_fdiv_one_third : fdiv .binary32 0 0x3F800000 0x40400000 = 0x3EAAAAAB ∧
    fdiv .binary64 0 0x3FF0000000000000 0x4008000000000000 = 0x3FD5555555555555 := by decide +kernel

/-- V3, row b0 = -0: 1 by it is -∞, -1 by it is +∞; row b0 = +∞: -1 by it is -0. -/
theorem test_fdiv_by_zero_and_infinity : fdiv .binary32 0 0x3F800000 0x80000000 = 0xFF800000 ∧
    fdiv .binary32 0 0xBF800000 0x80000000 = 0x7F800000 ∧ fdiv .binary32 0 0xBF800000 0x7F800000 = 0x80000000 := by
  decide +kernel

/-- V3, rows +0 and -0: 0/0 is a NaN, drawn. -/
theorem test_fdiv_zero_by_zero (d : Word) : isNaN .binary32 (fdiv .binary32 d 0 0) = true ∧
    isNaN .binary32 (fdiv .binary32 d 0x80000000 0) = true :=
  ⟨isNaN_quietNaN .binary32 d, isNaN_quietNaN .binary32 d⟩

/-- V3F: 1 / 2^-149 overflows to +∞. -/
theorem test_fdiv_by_smallest_subnormal : fdiv .binary32 0 0x3F800000 0x00000001 = 0x7F800000 := by decide +kernel

/-- V6: no flush to zero. -/
theorem test_fmul_keeps_subnormal : fmul .binary64 0 0x0000000000000001 0x3FF0000000000000 = 0x0000000000000001 := by
  decide +kernel

/-- V7, steps 3 and 4: MAX + 2 rounds to MAX, MAX + MAX overflows. -/
theorem test_fadd_at_the_largest_value : fadd .binary32 0 0x7F7FFFFF 0x40000000 = 0x7F7FFFFF ∧
    fadd .binary32 0 0x7F7FFFFF 0x7F7FFFFF = 0x7F800000 := by decide +kernel

/-- E6: 0.2 · 3 in binary64. -/
theorem test_fmul_rounds : fmul .binary64 0 0x3FC999999999999A 0x4008000000000000 = 0x3FE3333333333334 := by decide +kernel

/-- V5: (-0) + (+0) = +0; and 1 - 1 = +0 (40_scalar_biquad.md R103). -/
theorem test_zero_signs : fadd .binary32 0 0x80000000 0 = 0 ∧ fsub .binary32 0 0x3F800000 0x3F800000 = 0 ∧
    fadd .binary32 0 0x80000000 0x80000000 = 0x80000000 := by decide +kernel

/-- V10: the association (0.1 + 0.2) + 0.3. -/
theorem test_fadd_order : fadd .binary64 0 (fadd .binary64 0 0x3FB999999999999A 0x3FC999999999999A) 0x3FD3333333333333 =
    0x3FE3333333333334 := by decide +kernel

/-- V11. -/
theorem test_spm : spm .hold ⟨2, 1, 25, 1⟩ 3 7 = ⟨2, 1, 25, 1⟩ ∧ spm .shift ⟨2, 1, 25, 1⟩ 3 7 = ⟨3, 2, 7, 25⟩ ∧
    spm .clear ⟨2, 1, 25, 1⟩ 3 7 = ⟨0, 0, 0, 0⟩ := by decide

/-! ### The commands -/

/-- V12: every lane holds (1, 2, 1, -0.5, 0.25), UNIFORM = 1. -/
theorem test_engSetcAll : leads (exec .engSetcAll configured) (fun t =>
    decide (t.eng.k = broadcast 3 storedV1 ∧ t.eng.uniform = true ∧ t.eng.h = configured.eng.h)) = true := by decide +kernel

/-- V18: no fault for b0 = -0 under PROPAGATE, STATUS 0x00000031 under FAULT. -/
theorem test_engSetcAll_minus_zero_faults : leads (exec .engSetcAll minusZeroB0) (fun t =>
    decide (statusWord t = 0x00000031 ∧ t.eng = minusZeroB0.eng)) = true := by decide +kernel

/-- V12, second bullet: lane 1 holds (+0, 1, +0, +0, +0), UNIFORM = 0. -/
theorem test_engSetcLane : leads (exec (.engSetcLane 1) { beforeV13 with
      cdata := { c0 := 0, c1 := 0x3F800000, c2 := 0, c3 := 0x3F800000, c4 := 0, c5 := 0 } }) (fun t =>
    decide (laneCoeffs t.eng.k 1 = ⟨0, 0x3F800000, 0, 0, 0⟩ ∧ laneCoeffs t.eng.k 0 = storedV1 ∧
      laneCoeffs t.eng.k 2 = storedV1 ∧ t.eng.uniform = false)) = true := by decide +kernel

/-- V18: the lane is checked before b0. -/
theorem test_engSetcLane_out_of_range : leads (exec (.engSetcLane 3) minusZeroB0) (fun t =>
    decide (statusWord t = 0x00000021 ∧ t.eng = minusZeroB0.eng)) = true := by decide +kernel

/-- V13. -/
theorem test_engProcess : leads (exec .engProcess beforeV13) (fun t =>
    decide (t.vbuf = [0x40200000, 0x3F800000, 0x40860000] ∧
      laneHist t.eng.h 0 = ⟨0, 0x3F800000, 0x40200000, 0x3F800000⟩ ∧ laneHist t.eng.h 1 = ⟨0x3F800000, 0, 0x3F800000, 0⟩ ∧
      laneHist t.eng.h 2 = ⟨0x40800000, 0xBF800000, 0x40860000, 0x3F000000⟩ ∧ t.eng.scr = [0, 0x3F800000, 0x40800000])) =
    true := by decide +kernel

/-- P4: ENG.PROCESS on a FAULTED core is consumed and does nothing. -/
theorem test_engProcess_faulted : leads (issueCommand 0x00000003 faulted) (fun t => decide (t = faulted)) = true := by
  decide +kernel

/-- V15: history and SCR cleared; coefficients, UNIFORM and VBUF kept. -/
theorem test_engReset : leads (exec .engReset beforeV13) (fun t =>
    decide (t.eng.h = ⟨[0, 0, 0], [0, 0, 0], [0, 0, 0], [0, 0, 0]⟩ ∧ t.eng.scr = [0, 0, 0] ∧ t.eng.k = beforeV13.eng.k ∧
      t.eng.uniform = true ∧ t.vbuf = beforeV13.vbuf)) = true := by decide +kernel

/-- V1. -/
theorem test_sbSetc : leads (exec .sbSetc configured) (fun t => decide (t.sb.k = storedV1 ∧ t.err = false)) = true := by
  decide +kernel

/-- V18: SB.SETC with b0 = -0 under FAULT leaves the coefficients +0. -/
theorem test_sbSetc_minus_zero_faults : leads (exec .sbSetc minusZeroB0) (fun t =>
    decide (statusWord t = 0x00000031 ∧ t.sb = sbReset)) = true := by decide +kernel

/-- V10. -/
theorem test_sbProcess_order : leads (exec .sbProcess beforeV10) (fun t => decide (t.sdata = 0x3FE3333333333334)) = true := by
  decide +kernel

/-- V5: the identity set on -0. -/
theorem test_sbProcess_minus_zero : leads (exec .sbProcess { fresh p1 with
      sb := { sbReset with k := ⟨0x3F800000, 0, 0, 0, 0⟩ }, sdata := 0x80000000 }) (fun t =>
    decide (t.sdata = 0 ∧ t.sb.h = ⟨0x80000000, 0, 0, 0⟩)) = true := by decide +kernel

/-- P5: SB.RESET clears the history and keeps coefficients and SDATA. -/
theorem test_sbReset : leads (exec .sbReset beforeV10) (fun t =>
    decide (t.sb.h = ⟨0, 0, 0, 0⟩ ∧ t.sb.k = beforeV10.sb.k ∧ t.sdata = beforeV10.sdata)) = true := by decide +kernel

/-! ### Registers, the command port, the assembler -/

/-- V19: CONFIG; other indices read 0. -/
theorem test_config_words : configWord ⟨1, 1, .binary32, .propagate⟩ = 0x00000000 ∧ configWord p1 = 0x00020000 ∧
    configWord ⟨2, 1, .binary64, .propagate⟩ = 0x00010001 ∧ configWord ⟨65536, 1, .binary64, .fault⟩ = 0xFFFF0001 ∧
    readReg configured 2 = 0 := by decide +kernel

/-- V18: STATUS with UNIFORM set after InvalidArgument. -/
theorem test_status_word : statusWord faulted = 0x00000121 := by decide +kernel

/-- V18: an illegal word on a core that is not FAULTED: 0x00000011 with UNIFORM kept. -/
theorem test_illegal_word : leads (issueCommand 0x00010003 beforeV13) (fun t => decide (statusWord t = 0x00000111)) = true := by
  decide +kernel

/-- P1, first line: RDREG 1 returns 0x00020000. -/
theorem test_step_reads_config : leads (step { configured with inbox := [.readReg 1] }) (fun t =>
    decide (t.readouts = [.register 0x00020000] ∧ t.inbox = [])) = true := by decide +kernel

/-- P4's FAULTED core after hard reset: STATUS 0, coefficients, history and SCR +0 (10_state.md R46, 60_exceptions.md R191). -/
theorem test_step_hard_reset : leads (step { faulted with inbox := [.hardReset, .readReg 0] }) (fun t =>
    decide (statusWord t = 0 ∧ t.eng = engReset 3 ∧ t.sb = sbReset ∧ t.inbox = [.readReg 0])) = true := by decide +kernel

/-- The host's word runs as the very next step. -/
theorem test_step_runs_the_word : leads (step (configured.withFetchWord 32 0x00000011)) (fun t => decide (t.sb.k = storedV1)) =
    true := by decide +kernel

/-- P1's line `RDREG 1` with its comment, and 30_encoding.md R82's lane index in hexadecimal. -/
theorem test_assemble_lines : parseLine p1 "RDREG 1                         ; -> 0x00020000".toList = some [.plain (.rdReg 1)] ∧
    parseLine p1 "ENG.SETC.LANE 0x3".toList = some [.plain (.command (.engSetcLane 3))] ∧
    parseLine p1 " SB.RESET ; 0x00000013".toList = some [.plain (.command .sbReset)] := by decide +kernel

/-- P1's line SETC.ALL. -/
theorem test_assemble_setcAll : parseLine p1 ("SETC.ALL ".toList ++ braced "2, 4, 2, 2, -1, 0.5") =
    some [.setcAll ⟨0x40000000, 0x40800000, 0x40000000, 0x40000000, 0xBF800000, 0x3F000000⟩] := by decide +kernel

/-- E1's literals, and the named ones of 30_encoding.md R83. -/
theorem test_literals : parseValue .binary32 "-1.9556".toList = some 0xBFFA511A ∧
    parseValue .binary64 "0.0004".toList = some 0x3F3A36E2EB1C432D ∧ parseValue .binary32 "0x7F7FFFFF".toList = some 0x7F7FFFFF ∧
    parseValue .binary64 "0x7F7FFFFF".toList = none ∧ parseValue .binary32 "-0.0".toList = some 0x80000000 ∧
    parseValue .binary64 "nan".toList = some 0x7FF8000000000000 ∧ parseValue .binary32 "-inf".toList = some 0xFF800000 := by
  decide +kernel

/-- 30_encoding.md R84: FILT. -/
theorem test_filt_expands : (AsmLine.filt [5, 6]).actions 2 =
    [.write (.vbuf 0) 5, .write (.vbuf 1) 6, .command 0x00000003, .read (.vbuf 0), .read (.vbuf 1)] := by decide +kernel

/-! ### Witnesses: for each statement with hypotheses, values that meet them -/

/-- A next state for a command that some state takes, and the state. -/
def acting (a : HostAction) (s : State) : State := { s with inbox := [a] }

/-- The largest instance, its lanes left out (statements about LANE alone). -/
def widest : State := { fresh p1 with params := { p1 with n := 65536 } }

/-- SB with a NaN in y1, its history otherwise finite. -/
def nanY1 : State := { fresh p1 with sb := { sbReset with h := { histZero with y1 := 0x7FC00000 } } }

/-- Lane 2 of the engine and SB in agreement, the same input on both. -/
def paired : State :=
  { beforeV13 with
    sb := { k := storedV1, h := laneHist beforeV13.eng.h 2 }
    sdata := 0x40800000 }

theorem witness_DecodeInvertsEncode : (Instr.engSetcLane 65535).wf = true ∧ (Instr.engSetcLane 0).wf = true ∧
    Instr.sbReset.wf = true := by decide

theorem witness_EncodeInvertsDecode : decode 0xFFFF0002 = .ok (.engSetcLane 65535) ∧ decode 0x00000013 = .ok .sbReset := by
  decide +kernel

theorem witness_MatchAndMaskOfEachCommand : decode 0xFFFF0002 = .ok (.engSetcLane 65535) ∧
    decode 0x00000002 = .ok (.engSetcLane 0) := by decide +kernel

theorem witness_UndefinedOpcodesAreIllegal :
    (opcField 0x00000000 ∉ [0x01, 0x02, 0x03, 0x04, 0x11, 0x12, 0x13] ∧ opcField 0x00000005 ∉ [0x01, 0x02, 0x03, 0x04, 0x11, 0x12, 0x13] ∧
      opcField 0x00000010 ∉ [0x01, 0x02, 0x03, 0x04, 0x11, 0x12, 0x13] ∧ opcField 0x00000014 ∉ [0x01, 0x02, 0x03, 0x04, 0x11, 0x12, 0x13] ∧
      opcField 0x000000FF ∉ [0x01, 0x02, 0x03, 0x04, 0x11, 0x12, 0x13] ∧ configured.err = false) ∧
    2 ≤ unitField 0x00000020 ∧ 2 ≤ unitField 0x000000F1 := by decide +kernel

theorem witness_IllegalCommandExactly :
    (∃ e, decode 0x00000014 = .error e) ∧ (∃ e, decode 0x00000102 = .error e) ∧ (∃ e, decode 0x00010003 = .error e) ∧
    configured.err = false := ⟨⟨_, rfl⟩, ⟨_, rfl⟩, ⟨_, rfl⟩, rfl⟩

theorem witness_StepRunsTheDecodedCommand : configured.params.legal = true ∧
    (acting (.command 0x00020002) configured).inbox = .command 0x00020002 :: [] ∧
    decode 0x00020002 = .ok (.engSetcLane 2) ∧ decodeTableWord 32 0x00020002 = some (.engSetcLane 2) := by decide +kernel

theorem witness_IllegalConfigurationIsRefused :
    ({ p1 with n := 0 } : Params).n = 0 ∧ 65536 < ({ p1 with n := 65537 } : Params).n ∧ ({ p1 with w := 0 } : Params).w = 0 ∧
    (fresh { p1 with w := 0 }).params = { p1 with w := 0 } ∧
    (1 ≤ ({ p1 with n := 1, w := 1 } : Params).n ∧ ({ p1 with n := 65536 } : Params).n ≤ 65536 ∧ 1 ≤ ({ p1 with w := 1 } : Params).w) := by
  decide

theorem witness_IdleAndRefusedHostMoves : configured.params.legal = true ∧ configured.inbox = [] ∧
    portExists configured (.cdata 6) = false ∧ portExists configured (.vbuf 3) = false ∧
    (portExists configured (.vbuf 2) = true ∧ portExists configured (.cdata 5) = true ∧ portExists configured .sdata = true ∧
      2 ^ configured.params.fmt.flen ≤ (0x100000000 : Word).toNat) := by decide +kernel

theorem witness_PortElementReadsAsLastWritten : configured.vbuf.length = configured.params.n ∧
    (portExists configured (.cdata 0) = true ∧ portExists configured (.cdata 5) = true ∧ portExists configured .sdata = true ∧
      portExists configured (.vbuf 0) = true ∧ portExists configured (.vbuf 2) = true) ∧
    fitsFmt configured.params.fmt 0xFFFFFFFF = true := by decide +kernel

theorem witness_HostAccessesHaveNoSideEffect :
    (∃ t, step (acting (.read (.vbuf 2)) configured) = .next t) ∧ (∃ t, step (acting (.readReg 7) configured) = .next t) ∧
    ∃ t, step (acting (.write (.cdata 5) 0x3F800000) configured) = .next t := ⟨⟨_, rfl⟩, ⟨_, rfl⟩, ⟨_, rfl⟩⟩

/-- A FAULTED core with configured lanes, and hard reset as the host's next action. -/
theorem witness_HardResetValues : (acting .hardReset faulted).params.legal = true ∧
    (acting .hardReset faulted).inbox = .hardReset :: [] := by decide

theorem witness_HardResetMeetsTheInvariant : ({ p1 with n := 1, w := 1 } : Params).legal = true ∧
    ({ p1 with n := 65536 } : Params).legal = true := by decide

theorem witness_StepKeepsTheInvariant : beforeV13.Inv ∧ ∃ t, step (acting (.command 0x00000003) beforeV13) = .next t :=
  ⟨by decide +kernel, _, rfl⟩

theorem witness_StepKeepsTheInvariant_inbox : (acting (.command 0x00000003) beforeV13).Inv := by decide +kernel

theorem witness_ScratchEqualsX1WhereReachable :
    ∃ t : State, Host.Core.run Sys2Proof.core 2 { State.hardReset p1 0 with inbox := [.command 0x00000004] } = .next t := ⟨_, rfl⟩

theorem witness_StatusRegisterFields : beforeV13.Inv ∧ beforeV13.err = false := by decide +kernel

theorem witness_ConfigRegisterFieldsAndConstancy : (fresh { p1 with n := 1 }).params.legal = true ∧
    widest.params.legal = true ∧ ∃ t, step (acting (.readReg 1) configured) = .next t := ⟨by decide, by decide, _, rfl⟩

/-- A tie (num odd, one bit too long), its two neighbours, and the ends of the range of `c`. -/
theorem witness_RoundingIsToNearestTiesToEven : 0 < 1 ∧ roundMag .binary32 16777217 1 < Fmt.binary32.infBits ∧
    roundMag .binary32 16777217 1 + 1 < Fmt.binary32.infBits ∧ 0 < Fmt.binary32.infBits ∧
    roundMag .binary32 1 3 < Fmt.binary32.infBits ∧ Fmt.binary32.infBits - 1 < Fmt.binary32.infBits := by decide +kernel

/-- Both sides of the middle between the largest finite binary32 value and 2^128. -/
theorem witness_OverflowGoesToInfinity : 0 < 1 ∧
    roundMag .binary32 ((2 ^ 25 - 1) * 2 ^ 252) 1 = Fmt.binary32.infBits ∧
    roundMag .binary32 ((2 ^ 25 - 1) * 2 ^ 252 - 1) 1 = Fmt.binary32.infBits - 1 := by decide +kernel

theorem witness_FiniteOperationsRoundTheExactResult :
    (isFinite .binary32 0x7F7FFFFF = true ∧ isFinite .binary32 0xFF7FFFFF = true ∧ isFinite .binary32 0x80000000 = true ∧
      isZero .binary32 0xFF7FFFFF = false ∧ isZero .binary32 0x80000000 = true) ∧
    (isInf .binary32 0x7F800000 = true ∧ isInf .binary32 0xFF800000 = true ∧
      signOf .binary32 0x7F800000 = signOf .binary32 0x7F800000 ∧ signOf .binary32 0x7F800000 ≠ signOf .binary32 0xFF800000) := by
  decide +kernel

theorem witness_NaNResultsExactlyQuietAndFree (d : Word) : isNaN .binary32 (fdiv .binary32 d 0 0) = true ∧
    (fitsFmt .binary32 0xFFC00001 = true ∧ isNaN .binary32 0xFFC00001 = true ∧
      magBits .binary32 0xFFC00001 / Fmt.binary32.quietWeight % 2 = 1) :=
  ⟨isNaN_quietNaN .binary32 d, by decide +kernel⟩

theorem witness_NormCornerCases :
    (isZero .binary32 0x80000000 = true ∧ isFinite .binary32 0x3F800000 = true ∧ isZero .binary32 0x3F800000 = false) ∧
    (isZero .binary32 0 = true ∧ isNaN .binary32 0x7FC00000 = true) ∧ isInf .binary32 0x7F800000 = true ∧
    (fitsFmt .binary32 0xFF800000 = true ∧ isNaN .binary32 0xFF800000 = false) ∧ p1Fault.policy = .fault := by decide +kernel

theorem witness_RecurrenceAgreesUpToNaN : sameCoeffs .binary32 storedV1 storedV1 = true ∧
    sameHist .binary32 histZero histZero = true ∧ sameValue .binary32 0x7FC00000 0xFFC00001 = true := by decide +kernel

theorem witness_IdentitySectionAndNaNOperands : (fitsFmt .binary32 0x80000000 = true ∧ isNaN .binary32 0x80000000 = false) ∧
    (∃ v ∈ [storedV1.a0, storedV1.a1, storedV1.a2, storedV1.b1, storedV1.b2, histZero.x1, histZero.x2, histZero.y1, histZero.y2,
      (0x7FC00000 : Word)], isNaN .binary32 v = true) ∧
    ∃ cv ∈ [((0 : Word), (0x7F800000 : Word))], isZero .binary32 cv.1 = true ∧ isInf .binary32 cv.2 = true :=
  ⟨by decide +kernel, ⟨0x7FC00000, by simp, by decide +kernel⟩, _, List.mem_singleton.2 rfl, by decide +kernel⟩

/-- The set of V1, zero history and the input -∞: one infinite term, no NaN, every partial sum -∞. -/
theorem witness_IdentitySectionAndNaNOperands_infinite_term :
    let t0 := fmul .binary32 (Config.freeWord 0) storedV1.a0 0xFF800000
    let t1 := fmul .binary32 (Config.freeWord 1) storedV1.a1 0
    let t2 := fmul .binary32 (Config.freeWord 2) storedV1.a2 0
    let t3 := fmul .binary32 (Config.freeWord 3) storedV1.b1 0
    let t4 := fmul .binary32 (Config.freeWord 4) storedV1.b2 0
    let s1 := fadd .binary32 (Config.freeWord 5) t0 t1
    let s2 := fadd .binary32 (Config.freeWord 6) s1 t2
    let s3 := fsub .binary32 (Config.freeWord 7) s2 t3
    (∀ t ∈ [t0, t1, t2, t3, t4], isNaN .binary32 t = false) ∧
    (∀ t ∈ [t0, t1, t2], isInf .binary32 t = true → signOf .binary32 t = true) ∧
    (∀ t ∈ [t3, t4], isInf .binary32 t = true → signOf .binary32 t = !true) ∧
    (∃ t ∈ [t0, t1, t2, t3, t4], isInf .binary32 t = true) ∧
    ∀ s ∈ [s1, s2, s3], isInf .binary32 s = true → signOf .binary32 s = true := by
  have e0 : fmul .binary32 (Config.freeWord 0) storedV1.a0 0xFF800000 = 0xFF800000 := by decide +kernel
  have e1 : fmul .binary32 (Config.freeWord 1) storedV1.a1 0 = 0 := by decide +kernel
  have e2 : fmul .binary32 (Config.freeWord 2) storedV1.a2 0 = 0 := by decide +kernel
  have e3 : fmul .binary32 (Config.freeWord 3) storedV1.b1 0 = 0x80000000 := by decide +kernel
  have e4 : fmul .binary32 (Config.freeWord 4) storedV1.b2 0 = 0 := by decide +kernel
  have e5 : fadd .binary32 (Config.freeWord 5) 0xFF800000 0 = 0xFF800000 := by decide +kernel
  have e6 : fadd .binary32 (Config.freeWord 6) 0xFF800000 0 = 0xFF800000 := by decide +kernel
  have e7 : fsub .binary32 (Config.freeWord 7) 0xFF800000 0x80000000 = 0xFF800000 := by decide +kernel
  have inf : isNaN .binary32 0xFF800000 = false ∧ isInf .binary32 0xFF800000 = true ∧ signOf .binary32 0xFF800000 = true := by
    decide +kernel
  have zero : isNaN .binary32 0 = false ∧ isInf .binary32 0 = false := by decide +kernel
  have minus : isNaN .binary32 0x80000000 = false ∧ isInf .binary32 0x80000000 = false := by decide +kernel
  simp only [e0, e1, e2, e3, e4, e5, e6, e7, List.forall_mem_cons, List.exists_mem_cons_iff, inf, zero, minus]
  simp

theorem witness_UnconfiguredSectionOutputsZero : isFinite .binary32 0 = true ∧ isFinite .binary32 0xBF800000 = true ∧
    (isFinite .binary32 0x40A00000 = true ∧ signOf .binary32 0x40A00000 = false) ∧
    (signOf .binary32 0xBF800000 = true ∧ signOf .binary32 0 = false) ∧ isInf .binary32 0x7F800000 = true ∧
    isNaN .binary32 0x7FC00000 = true := by decide +kernel

theorem witness_UnconfiguredSectionReturnsPlusZero : (fresh p1).err = false ∧
    (fresh p1).sb.k = { a0 := 0, a1 := 0, a2 := 0, b1 := 0, b2 := 0 } ∧ isFinite .binary32 (fresh p1).sb.h.x1 = true ∧
    isFinite .binary32 (fresh p1).sdata = true ∧ ∃ t, exec .sbProcess (fresh p1) = .next t :=
  ⟨rfl, by decide, by decide +kernel, by decide +kernel, _, rfl⟩

theorem witness_SbSetcStoresTheNormalizedSet : configured.err = false ∧ configured.params.policy = .propagate ∧
    ({ configured with params := p1Fault } : State).params.policy = .fault ∧
    isZero .binary32 ({ configured with params := p1Fault } : State).cdata.c3 = false := by decide +kernel

theorem witness_SbProcessFiltersOneSample : beforeV10.err = false := rfl

theorem witness_SbResetClearsTheHistory : beforeV10.err = false := rfl

theorem witness_EngSetcAllStoresTheSetInEveryLane : configured.err = false ∧ configured.params.policy = .propagate := by decide

theorem witness_EngSetcLaneStoresTheSetInOneLane : configured.err = false ∧ 2 < configured.params.n ∧ 0 < configured.params.n ∧
    65535 < widest.params.n ∧ configured.params.policy = .propagate := by decide

theorem witness_EngProcessIsTheScalarRecurrenceInEveryLane : beforeV13.err = false := rfl

theorem witness_EngResetClearsEveryLane : beforeV13.err = false := rfl

theorem witness_PseudoInstructionsRunAsTheirExpansions : configured.params.legal = true ∧
    configured.vbuf.length = configured.params.n ∧ 65535 < 65536 ∧ [(5 : Word), 6, 7].length = configured.params.n ∧
    fitsAll configured.params.fmt [5, 6, 0xFFFFFFFF] = true ∧ fitsFmt configured.params.fmt 0xFFFFFFFF = true ∧
    (∃ t, exec .sbProcess { configured with inbox := [], sdata := 5 } = .next t) ∧
    ∃ t, exec .engProcess { configured with inbox := [], vbuf := [5, 6, 7] } = .next t :=
  ⟨by decide, by decide, by decide, by decide, by decide +kernel, by decide +kernel, ⟨_, rfl⟩, _, rfl⟩

theorem witness_OutOfRangeLaneFaults : configured.err = false ∧ configured.params.n ≤ 3 ∧ configured.params.n ≤ 65535 := by decide

theorem witness_DegenerateCoefficientExactly : minusZeroB0.err = false ∧ minusZeroB0.cause = .none ∧
    fitsFmt minusZeroB0.params.fmt minusZeroB0.cdata.c3 = true ∧ ∃ t, exec (.engSetcLane 2) minusZeroB0 = .next t :=
  ⟨rfl, rfl, by decide +kernel, _, rfl⟩

theorem witness_FaultedCoreExecutesNothing : faulted.err = true ∧ portExists faulted (.vbuf 2) = true ∧
    fitsFmt faulted.params.fmt 0x3F800000 = true ∧
    (∃ t, step (acting (.command 0x00000004) faulted) = .next t ∧
      (acting (.command 0x00000004) faulted).inbox.head? ≠ some .hardReset) ∧
    ∃ t, step (acting .hardReset faulted) = .next t ∧ (acting .hardReset faulted).inbox.head? = some .hardReset :=
  ⟨rfl, by decide, by decide +kernel, ⟨_, rfl, by decide⟩, _, rfl, rfl⟩

theorem witness_FaultsArePrecise : configured.err = false ∧ ∃ t, issueCommand 0x00030002 configured = .next t ∧ t.err = true :=
  ⟨rfl, _, rfl, by decide +kernel⟩

theorem witness_CleanRunsRaiseNoFault : beforeV13.err = false ∧ beforeV13.cause = .none ∧
    cleanRun 1 (acting (.command 0x00020002) beforeV13) ∧
    ∃ t : State, Host.Core.run Sys2Proof.core 1 (acting (.command 0x00020002) beforeV13) = .next t :=
  ⟨rfl, rfl, ⟨by decide +kernel, fun _ _ => trivial⟩, _, rfl⟩

theorem witness_BlocksActOnDisjointState : (∃ t, exec .sbProcess beforeV13 = .next t) ∧ ∃ t, exec .engProcess beforeV13 = .next t :=
  ⟨⟨_, rfl⟩, _, rfl⟩

theorem witness_SbCommandsFrame : (∃ t, exec .sbSetc configured = .next t) ∧ (∃ t, exec .sbProcess configured = .next t) ∧
    ∃ t, exec .sbReset configured = .next t := ⟨⟨_, rfl⟩, ⟨_, rfl⟩, _, rfl⟩

theorem witness_EngCommandsFrame : (∃ t, exec .engSetcAll configured = .next t) ∧
    (∃ t, exec (.engSetcLane 2) configured = .next t) ∧ (∃ t, exec .engProcess configured = .next t) ∧
    ∃ t, exec .engReset configured = .next t := ⟨⟨_, rfl⟩, ⟨_, rfl⟩, ⟨_, rfl⟩, _, rfl⟩

theorem witness_CoefficientsChangeOnlyBySetc :
    (∃ t, step (acting (.command 0x00000001) configured) = .next t ∧ t.eng.k ≠ configured.eng.k) ∧
    ∃ t, step (acting (.command 0x00000011) configured) = .next t ∧ t.sb.k ≠ configured.sb.k :=
  ⟨⟨_, rfl, by decide +kernel⟩, _, rfl, by decide +kernel⟩

theorem witness_HistoryChangesOnlyByProcessAndReset :
    (∃ t, step (acting (.command 0x00000004) beforeV13) = .next t ∧ t.eng.h ≠ beforeV13.eng.h) ∧
    ∃ t, step (acting (.command 0x00000013) beforeV10) = .next t ∧ t.sb.h ≠ beforeV10.sb.h :=
  ⟨⟨_, rfl, by decide +kernel⟩, _, rfl, by decide +kernel⟩

theorem witness_MuxSelectPerCommand : (beforeV13.err = false ∧ beforeV13.LanesFull ∧ 2 < beforeV13.params.n ∧
      ∃ t, exec .engProcess beforeV13 = .next t) ∧
    (faulted.err = true ∧ ∃ t, issueCommand 0x00000003 faulted = .next t) ∧
    (∃ e, decode 0x00010003 = .error e) ∧ ∃ t, issueCommand 0x00010003 beforeV13 = .next t :=
  ⟨⟨rfl, by decide, by decide, _, rfl⟩, ⟨rfl, _, rfl⟩, ⟨_, rfl⟩, _, rfl⟩

theorem witness_NoCommandWritesBothDimensions : ∃ t, exec .engSetcAll configured = .next t := ⟨_, rfl⟩

theorem witness_UniformRecordsTheLastCoefficientCommand : (∃ t, exec .engSetcAll configured = .next t) ∧
    ∃ t, exec (.engSetcLane 2) beforeV13 = .next t := ⟨⟨_, rfl⟩, _, rfl⟩

theorem witness_SoftResetsAreIdempotent : (∃ t, exec .engReset beforeV13 = .next t) ∧ ∃ t, exec .sbReset beforeV10 = .next t :=
  ⟨⟨_, rfl⟩, _, rfl⟩

theorem witness_NaNStaysInTheScalarSection : (nanY1.err = false ∧ isNaN nanY1.params.fmt nanY1.sb.h.y1 = true ∧
      ∃ t, exec .sbProcess nanY1 = .next t) ∧
    isNaN (fresh p1).params.fmt ({ fresh p1 with sdata := 0x7FC00000 } : State).sdata = true ∧
    ((acting (.command 0x00000012) nanY1).inbox.head? ≠ some .hardReset ∧
      (acting (.command 0x00000012) nanY1).inbox.head? ≠ some (.command 0x00000013) ∧
      ∃ t, step (acting (.command 0x00000012) nanY1) = .next t) :=
  ⟨⟨rfl, by decide +kernel, _, rfl⟩, by decide +kernel, by decide, by decide, _, rfl⟩

theorem witness_SetcAllGivesEveryLaneTheSamePatterns : configured.err = false ∧
    (∃ t, exec .engSetcAll configured = .next t ∧ t.err = false) ∧ 0 < configured.params.n ∧ 2 < configured.params.n :=
  ⟨rfl, ⟨_, rfl, by decide +kernel⟩, by decide, by decide⟩

theorem witness_CoefficientCommandsStoreTheSameSet : configured.err = false ∧ configured.LanesFull ∧ 2 < configured.params.n ∧
    (∃ t u, exec .engSetcAll configured = .next t ∧ exec .sbSetc t = .next u ∧ u.err = false) ∧
    ∃ t u, exec (.engSetcLane 2) configured = .next t ∧ exec .sbSetc t = .next u ∧ u.err = false :=
  ⟨rfl, by decide, by decide, ⟨_, _, rfl, rfl, by decide +kernel⟩, _, _, rfl, rfl, by decide +kernel⟩

theorem witness_LaneConfigurationLeavesOtherLanes : ∃ t u v, exec (.engSetcLane 1) beforeV13 = .next t ∧ 2 ≠ 1 ∧
    2 < beforeV13.params.n ∧ t.err = false ∧ exec .engProcess beforeV13 = .next u ∧ exec .engProcess t = .next v :=
  ⟨_, _, _, rfl, by decide, by decide, by decide +kernel, rfl, rfl⟩

/-- Lane 1 of V13's engine and lane 0 of one with the same sets, fresh histories and the input 1. -/
theorem witness_LaneResultDependsOnItsLaneAlone :
    let other := { beforeV13 with eng := { beforeV13.eng with h := (engReset 3).h }, vbuf := [0x3F800000, 0, 0] }
    beforeV13.err = false ∧ other.err = false ∧ other.params.fmt = beforeV13.params.fmt ∧ 1 < beforeV13.params.n ∧
    0 < other.params.n ∧
    sameCoeffs .binary32 (laneCoeffs beforeV13.eng.k 1) (laneCoeffs other.eng.k 0) = true ∧
    sameHist .binary32 (laneHist beforeV13.eng.h 1) (laneHist other.eng.h 0) = true ∧
    sameValue .binary32 (beforeV13.vbuf.getD 1 0) (other.vbuf.getD 0 0) = true ∧
    (∃ t, exec .engProcess beforeV13 = .next t) ∧ ∃ t, exec .engProcess other = .next t :=
  ⟨rfl, rfl, rfl, by decide, by decide, by decide +kernel, by decide +kernel, by decide +kernel, ⟨_, rfl⟩, _, rfl⟩

theorem witness_VectorWidthIsNotObservable : ∃ t, exec .engProcess beforeV13 = .next t := ⟨_, rfl⟩

theorem witness_EngineLaneKeepsParityWithTheScalarSection : paired.err = false ∧ 2 < paired.params.n ∧ paired.LaneMatchesSb 2 ∧
    sameValue paired.params.fmt (paired.vbuf.getD 2 0) paired.sdata = true ∧
    ∃ t u, exec .engProcess paired = .next t ∧ exec .sbProcess t = .next u :=
  ⟨rfl, by decide, by decide +kernel, by decide +kernel, _, _, rfl, rfl⟩

end Sys2Proof.Tests
end

section
/-! SUPPORT. What an operation, a command and a step keep of the state, said once each: the widths and lengths of the
register files, the blocks a command leaves alone, and the induction over steps and runs. -/

namespace Sys2Proof.Machine

/-! ### Widths -/

theorem fitsAll_replicate {f : Fmt} {v : Word} (n : Nat) (h : fitsFmt f v = true) :
    fitsAll f (List.replicate n v) = true := by
  simp [fitsAll, h]

theorem fitsAll_zeros (f : Fmt) (n : Nat) : fitsAll f (zeros n) = true := fitsAll_replicate n (fits_plusZero f)

theorem fitsAll_map {α : Type} {f : Fmt} {g : α → Word} (l : List α) (h : ∀ a, fitsFmt f (g a) = true) :
    fitsAll f (l.map g) = true := by
  simp [fitsAll, h]

theorem fitsAll_set {f : Fmt} {l : List Word} {v : Word} (i : Nat) (hl : fitsAll f l = true) (hv : fitsFmt f v = true) :
    fitsAll f (l.set i v) = true := by
  simp only [fitsAll, List.all_eq_true] at hl ⊢
  intro x hx
  rcases List.mem_or_eq_of_mem_set hx with hx | rfl
  · exact hl x hx
  · exact hv

/-- An entry of a file of FLEN-bit words has FLEN bits; so has the +0 read where there is none. -/
theorem fits_getD {f : Fmt} {l : List Word} (i : Nat) (h : fitsAll f l = true) : fitsFmt f (l.getD i plusZero) = true := by
  simp only [fitsAll, List.all_eq_true] at h
  rw [List.getD_eq_getElem?_getD]
  cases hi : l[i]? with
  | none => exact fits_plusZero f
  | some v => exact h v (List.mem_of_getElem? hi)

/-- ENG's five coefficient files hold FLEN-bit words. -/
def engCoeffsFit (f : Fmt) (k : EngCoeffs) : Bool :=
  fitsAll f k.a0 && fitsAll f k.a1 && fitsAll f k.a2 && fitsAll f k.b1 && fitsAll f k.b2

/-- ENG's four history files hold FLEN-bit words. -/
def engHistFits (f : Fmt) (h : EngHist) : Bool := fitsAll f h.x1 && fitsAll f h.x2 && fitsAll f h.y1 && fitsAll f h.y2

theorem engFits_iff (f : Fmt) (e : Eng) :
    engFits f e = true ↔ engCoeffsFit f e.k = true ∧ engHistFits f e.h = true ∧ fitsAll f e.scr = true := by
  simp only [engFits, engCoeffsFit, engHistFits, Bool.and_eq_true, and_assoc]

theorem engCoeffsFit_broadcast {f : Fmt} {k : Coeffs} (n : Nat) (h : coeffsFit f k = true) :
    engCoeffsFit f (broadcast n k) = true := by
  simp only [coeffsFit, Bool.and_eq_true] at h
  simp only [engCoeffsFit, broadcast, fitsAll_replicate, h, Bool.and_self]

theorem engCoeffsFit_setLane {f : Fmt} {e : EngCoeffs} {k : Coeffs} (i : Nat) (he : engCoeffsFit f e = true)
    (hk : coeffsFit f k = true) : engCoeffsFit f (setLane e i k) = true := by
  simp only [engCoeffsFit, coeffsFit, Bool.and_eq_true] at he hk
  simp only [engCoeffsFit, setLane, fitsAll_set, he, hk, Bool.and_self]

theorem engHistFits_histFiles {α : Type} {f : Fmt} {g : α → Hist} (l : List α) (h : ∀ a, histFits f (g a) = true) :
    engHistFits f (histFiles (l.map g)) = true := by
  simp only [histFits, Bool.and_eq_true] at h
  simp only [engHistFits, histFiles, List.map_map]
  simp [fitsAll_map, h]

theorem histFits_laneHist {f : Fmt} {h : EngHist} (i : Nat) (hh : engHistFits f h = true) :
    histFits f (laneHist h i) = true := by
  simp only [engHistFits, Bool.and_eq_true] at hh
  simp only [histFits, laneHist, fits_getD, hh, Bool.and_self]

theorem histFits_spm {f : Fmt} (sel : SpmSel) {h : Hist} {x y : Word} (hh : histFits f h = true)
    (hx : fitsFmt f x = true) (hy : fitsFmt f y = true) : histFits f (spm sel h x y) = true := by
  cases sel with
  | hold => exact hh
  | shift =>
    simp only [histFits, Bool.and_eq_true] at hh
    simp only [histFits, spm, hx, hy, hh, Bool.and_self]
  | clear => simp only [histFits, spm, fits_plusZero, Bool.and_self]

theorem cdataFits_set {f : Fmt} {c : Cdata} {v : Word} (j : Nat) (hc : cdataFits f c = true) (hv : fitsFmt f v = true) :
    cdataFits f (c.set v j) = true := by
  simp only [cdataFits, Bool.and_eq_true] at hc ⊢
  rcases j with _ | _ | _ | _ | _ | _ | j <;> simp only [Cdata.set, hc, hv, and_self]

/-! ### The invariant, operation by operation -/

/-- The files and ports keep their N entries under every command (10_state.md R30, R40). -/
theorem effect_lanesFull {s : State} (i : Instr) (h : s.LanesFull) : (effect i s).LanesFull := by
  obtain ⟨hk, hh, hscr, hvbuf⟩ := h
  cases i with
  | engSetcAll => exact ⟨by simp [effect, broadcast], hh, hscr, hvbuf⟩
  | engSetcLane lane => exact ⟨by simpa [effect, setLane] using hk, hh, hscr, hvbuf⟩
  | engProcess => exact ⟨hk, by simp [effect, histFiles], by simp [effect], by simp [effect]⟩
  | engReset => exact ⟨hk, by simp [effect, zeros], by simp [effect, zeros], hvbuf⟩
  | sbSetc | sbProcess | sbReset => exact ⟨hk, hh, hscr, hvbuf⟩

/-- Every word a command writes has FLEN bits (20_memory.md R62). -/
theorem effect_wordsFit {s : State} (i : Instr) (h : s.WordsFit) : (effect i s).WordsFit := by
  obtain ⟨heng, hsbk, hsbh, hcdata, hsdata, hvbuf⟩ := h
  obtain ⟨hk, hh, hscr⟩ := (engFits_iff _ _).1 heng
  have hq := coeffsFit_quotients s.params.fmt s.draws (rawOperand s)
  have hx : ∀ l, fitsFmt s.params.fmt (laneSample s l) = true := fun l => fits_getD l hvbuf
  cases i with
  | engSetcAll => exact ⟨(engFits_iff _ _).2 ⟨engCoeffsFit_broadcast _ hq, hh, hscr⟩, hsbk, hsbh, hcdata, hsdata, hvbuf⟩
  | engSetcLane lane =>
    exact ⟨(engFits_iff _ _).2 ⟨engCoeffsFit_setLane _ hk hq, hh, hscr⟩, hsbk, hsbh, hcdata, hsdata, hvbuf⟩
  | engProcess =>
    have hh' : ∀ l, histFits s.params.fmt (processLane s l).h = true :=
      fun l => histFits_spm .shift (histFits_laneHist l hh) (hx l) (fits_bq ..)
    exact ⟨(engFits_iff _ _).2 ⟨hk, engHistFits_histFiles _ hh', fitsAll_map _ hx⟩, hsbk, hsbh, hcdata, hsdata,
      fitsAll_map _ fun _ => fits_bq ..⟩
  | engReset =>
    exact ⟨(engFits_iff _ _).2 ⟨hk, by simp only [effect, engHistFits, fitsAll_zeros, Bool.and_self], fitsAll_zeros _ _⟩,
      hsbk, hsbh, hcdata, hsdata, hvbuf⟩
  | sbSetc => exact ⟨heng, hq, hsbh, hcdata, hsdata, hvbuf⟩
  | sbProcess => exact ⟨heng, hsbk, histFits_spm .shift hsbh hsdata (fits_bq ..), hcdata, fits_bq .., hvbuf⟩
  | sbReset => exact ⟨heng, hsbk, histFits_spm .clear hsbh (fits_plusZero _) (fits_plusZero _), hcdata, hsdata, hvbuf⟩

/-- ENG.PROCESS writes the input into SCR and X1, ENG.RESET clears both, and no other command writes either (10_state.md R29). -/
theorem effect_scr_eq_x1 {s : State} (i : Instr) (h : s.eng.scr = s.eng.h.x1) :
    (effect i s).eng.scr = (effect i s).eng.h.x1 := by
  cases i with
  | engProcess => simp [effect, histFiles, processLane, spm]
  | engReset => rfl
  | engSetcAll | engSetcLane lane | sbSetc | sbProcess | sbReset => exact h

theorem effect_inv {s : State} (i : Instr) (h : s.Inv) : (effect i s).Inv := by
  obtain ⟨hlegal, hfull, hfit, hstatus, hscr⟩ := h
  exact ⟨by rwa [effect_params], effect_lanesFull i hfull, effect_wordsFit i hfit,
    by rwa [State.StatusAgrees, effect_err, effect_cause], effect_scr_eq_x1 i hscr⟩

theorem writePort_lanesFull {s : State} (p : Port) (v : Word) (h : s.LanesFull) : (writePort s p v).LanesFull := by
  cases p with
  | cdata j | sdata => exact h
  | vbuf i => simpa [State.LanesFull, writePort] using h

theorem writePort_wordsFit {s : State} {p : Port} {v : Word} (hv : fitsFmt s.params.fmt v = true) (h : s.WordsFit) :
    (writePort s p v).WordsFit := by
  obtain ⟨heng, hsbk, hsbh, hcdata, hsdata, hvbuf⟩ := h
  cases p with
  | cdata j => exact ⟨heng, hsbk, hsbh, cdataFits_set j hcdata hv, hsdata, hvbuf⟩
  | sdata => exact ⟨heng, hsbk, hsbh, hcdata, hv, hvbuf⟩
  | vbuf i => exact ⟨heng, hsbk, hsbh, hcdata, hsdata, fitsAll_set i hvbuf hv⟩

theorem writePort_inv {s : State} {p : Port} {v : Word} (hv : fitsFmt s.params.fmt v = true) (h : s.Inv) :
    (writePort s p v).Inv := by
  obtain ⟨hlegal, hfull, hfit, hstatus, hscr⟩ := h
  exact ⟨by rwa [writePort_params], writePort_lanesFull p v hfull, writePort_wordsFit hv hfit,
    by rwa [State.StatusAgrees, writePort_err, writePort_cause], by rwa [writePort_eng]⟩

/-- A fault writes a cause other than 0 together with ERR (60_exceptions.md R186). -/
theorem fault_inv {s : State} {c : Cause} (hc : c ≠ .none) (h : s.Inv) : { s with err := true, cause := c }.Inv := by
  obtain ⟨hlegal, hfull, hfit, -, hscr⟩ := h
  exact ⟨hlegal, hfull, hfit, by simpa [State.StatusAgrees] using hc, hscr⟩

/-- The operand ports hold FLEN-bit words after hard reset, whatever was drawn (10_state.md R47). -/
theorem cdataFits_cdataReset (f : Fmt) (d : Nat) : cdataFits f (cdataReset f d) = true := by
  simp only [cdataFits, cdataReset, drawPort, fits_truncFmt, Bool.and_self]

theorem fitsAll_vbufReset (f : Fmt) (n d : Nat) : fitsAll f (vbufReset f n d) = true :=
  fitsAll_map _ fun _ => fits_truncFmt f _

theorem length_vbufReset (f : Fmt) (n d : Nat) : (vbufReset f n d).length = n := by simp [vbufReset]

theorem hardReset_lanesFull (p : Params) (d : Nat) : (State.hardReset p d).LanesFull := by
  simp [State.LanesFull, State.hardReset, engReset, zeros, length_vbufReset]

theorem hardReset_wordsFit (p : Params) (d : Nat) : (State.hardReset p d).WordsFit :=
  ⟨by simp only [engFits, State.hardReset, engReset, fitsAll_zeros, Bool.and_self],
    by simp only [coeffsFit, State.hardReset, sbReset, coeffsZero, fits_plusZero, Bool.and_self],
    by simp only [histFits, State.hardReset, sbReset, histZero, fits_plusZero, Bool.and_self],
    cdataFits_cdataReset _ _, fits_truncFmt _ _, fitsAll_vbufReset _ _ _⟩

theorem hardReset_inv {p : Params} (d : Nat) (h : p.legal = true) : (State.hardReset p d).Inv :=
  ⟨h, hardReset_lanesFull p d, hardReset_wordsFit p d, by simp [State.StatusAgrees, State.hardReset], rfl⟩

/-! ### Induction over steps and runs -/

theorem FailsWith.cause_ne_none {i : Instr} {s : State} {c : Cause} (h : FailsWith i s c) : c ≠ .none := by
  rcases h with ⟨_, _, _, rfl⟩ | ⟨_, _, rfl⟩ <;> decide

/-- What a command word can do: nothing, a fault with a cause other than 0, or the effect of its command on a core that is not
FAULTED. -/
theorem issueCommand_effect {w : CmdWord} {s t : State} (h : issueCommand w s = .next t) :
    t = s ∨ (∃ c, c ≠ .none ∧ t = { s with err := true, cause := c }) ∨
      ∃ i, decode w = .ok i ∧ s.err = false ∧ t = effect i s := by
  rcases issueCommand_cases h with ⟨_, rfl⟩ | ⟨_, _, rfl⟩ | ⟨he, i, hi, hx⟩
  · exact .inl rfl
  · exact .inr (.inl ⟨_, by decide, rfl⟩)
  · rcases exec_cases hx with ⟨_, rfl⟩ | ⟨_, _, c, hc, rfl⟩ | ⟨_, _, rfl⟩
    · exact .inl rfl
    · exact .inr (.inl ⟨c, hc.cause_ne_none, rfl⟩)
    · exact .inr (.inr ⟨i, hi, he, rfl⟩)

/-- A property of states that each thing a step can do keeps is kept by every step. -/
theorem step_preserves {P : State → Prop}
    (take : ∀ s rest, P s → P { s with inbox := rest })
    (fault : ∀ s c, c ≠ .none → P s → P { s with err := true, cause := c })
    (command : ∀ i s, P s → P (effect i s))
    (write : ∀ s p v, fitsFmt s.params.fmt v = true → P s → P (writePort s p v))
    (read : ∀ r s, P s → P (record r s))
    (reset : ∀ s, P s → P (resetCore s))
    {s t : State} (hs : P s) (h : step s = .next t) : P t := by
  obtain ⟨_, ⟨_, rfl⟩ | ⟨a, rest, _, ha⟩⟩ := step_cases h
  · exact hs
  · have hs' := take s rest hs
    rcases perform_cases ha with ⟨w, _, hw⟩ | ⟨p, v, _, _, hv, rfl⟩ | ⟨p, _, _, rfl⟩ | ⟨k, _, rfl⟩ | ⟨_, rfl⟩
    · rcases issueCommand_effect hw with rfl | ⟨c, hc, rfl⟩ | ⟨i, _, _, rfl⟩
      · exact hs'
      · exact fault _ c hc hs'
      · exact command i _ hs'
    · exact write _ p v hv hs'
    · exact read _ _ hs'
    · exact read _ _ hs'
    · exact reset _ hs'

/-- A property that every step keeps holds wherever a run ends. -/
theorem run_preserves {P : State → Prop} (hstep : ∀ s t : State, P s → step s = .next t → P t) (k : Nat) {s t : State}
    (hs : P s) (h : Host.Core.run Sys2Proof.core k s = .next t) : P t := by
  induction k generalizing s with
  | zero => cases h; exact hs
  | succ k ih =>
    obtain ⟨u, hu, hr⟩ := core_run_cases h
    exact ih (hstep s u hs hu) hr

theorem step_inv {s t : State} (hs : s.Inv) (h : step s = .next t) : t.Inv :=
  step_preserves (P := State.Inv) (fun _ _ h => h) (fun _ _ => fault_inv) (fun i _ => effect_inv i)
    (fun _ _ _ => writePort_inv) (fun _ _ h => h) (fun s h => hardReset_inv s.draws h.1) hs h

theorem step_scr_eq_x1 (s t : State) (hs : s.eng.scr = s.eng.h.x1) (h : step s = .next t) : t.eng.scr = t.eng.h.x1 :=
  step_preserves (P := fun s => s.eng.scr = s.eng.h.x1) (fun _ _ h => h) (fun _ _ _ h => h) (fun i _ => effect_scr_eq_x1 i)
    (fun _ _ _ _ h => by simpa using h) (fun _ _ h => h) (fun _ _ => rfl) hs h

/-- No step writes the parameter set (log 1; hard reset too, log 14). -/
theorem step_params {s t : State} (h : step s = .next t) : t.params = s.params :=
  step_preserves (P := fun u => u.params = s.params) (fun _ _ h => h) (fun _ _ _ h => h)
    (fun i _ h => (effect_params i _).trans h) (fun _ _ _ _ h => (writePort_params ..).trans h) (fun _ _ h => h)
    (fun _ h => h) rfl h

/-! ### The blocks a command leaves alone -/

theorem effect_eng_k (i : Instr) (s : State) :
    (effect i s).eng.k = s.eng.k ∨ i = .engSetcAll ∨ ∃ lane, i = .engSetcLane lane := by
  cases i with
  | engSetcAll => exact .inr (.inl rfl)
  | engSetcLane lane => exact .inr (.inr ⟨lane, rfl⟩)
  | engProcess | engReset | sbSetc | sbProcess | sbReset => exact .inl rfl

theorem effect_eng_hist (i : Instr) (s : State) :
    ((effect i s).eng.h = s.eng.h ∧ (effect i s).eng.scr = s.eng.scr) ∨ i = .engProcess ∨ i = .engReset := by
  cases i with
  | engProcess => exact .inr (.inl rfl)
  | engReset => exact .inr (.inr rfl)
  | engSetcAll | engSetcLane lane | sbSetc | sbProcess | sbReset => exact .inl ⟨rfl, rfl⟩

theorem effect_sb_k (i : Instr) (s : State) : (effect i s).sb.k = s.sb.k ∨ i = .sbSetc := by
  cases i with
  | sbSetc => exact .inr rfl
  | engSetcAll | engSetcLane lane | engProcess | engReset | sbProcess | sbReset => exact .inl rfl

theorem effect_sb_h (i : Instr) (s : State) : (effect i s).sb.h = s.sb.h ∨ i = .sbProcess ∨ i = .sbReset := by
  cases i with
  | sbProcess => exact .inr (.inl rfl)
  | sbReset => exact .inr (.inr rfl)
  | engSetcAll | engSetcLane lane | engProcess | engReset | sbSetc => exact .inl rfl

/-- A step other than hard reset leaves both blocks as they are, or executes the command of the host's word on them. -/
theorem step_blocks {s t : State} (h : step s = .next t) (hr : s.inbox.head? ≠ some .hardReset) :
    (t.eng = s.eng ∧ t.sb = s.sb) ∨
    ∃ w i rest, s.inbox.head? = some (.command w) ∧ decode w = .ok i ∧ t = effect i { s with inbox := rest } := by
  obtain ⟨_, ⟨_, rfl⟩ | ⟨a, rest, hi, ha⟩⟩ := step_cases h
  · exact .inl ⟨rfl, rfl⟩
  · rcases perform_cases ha with ⟨w, rfl, hw⟩ | ⟨p, v, _, _, _, rfl⟩ | ⟨p, _, _, rfl⟩ | ⟨k, _, rfl⟩ | ⟨rfl, _⟩
    · rcases issueCommand_effect hw with rfl | ⟨c, _, rfl⟩ | ⟨i, hd, _, rfl⟩
      · exact .inl ⟨rfl, rfl⟩
      · exact .inl ⟨rfl, rfl⟩
      · exact .inr ⟨w, i, rest, by rw [hi]; rfl, hd, rfl⟩
    · exact .inl ⟨writePort_eng .., writePort_sb ..⟩
    · exact .inl ⟨rfl, rfl⟩
    · exact .inl ⟨rfl, rfl⟩
    · exact absurd (by rw [hi]; rfl) hr

/-- UNIFORM after a command that executes (41_parallel_engine.md R148). -/
theorem effect_uniform (i : Instr) (s : State) :
    (effect i s).eng.uniform = match i with
      | .engSetcAll => true
      | .engSetcLane _ => false
      | .engProcess | .engReset | .sbSetc | .sbProcess | .sbReset => s.eng.uniform := by
  cases i <;> rfl

/-! ### The register words, field by field -/

/-- A bit field of a register word is a digit of the number it is put together from. -/
theorem extractLsb'_ofNat_eq_iff (x start len : Nat) (v : BitVec len) :
    (BitVec.ofNat 32 x).extractLsb' start len = v ↔ x % 2 ^ 32 / 2 ^ start % 2 ^ len = v.toNat := by
  rw [← BitVec.toNat_inj, BitVec.extractLsb'_toNat, BitVec.toNat_ofNat, Nat.shiftRight_eq_div_pow]

theorem Cause.code_lt (c : Cause) : c.code < 4 := by cases c <;> decide

theorem fmtCode_lt (f : Fmt) : fmtCode f < 2 := by cases f <;> decide

/-- The fields of STATUS, its reserved bits among them (10_state.md R33). -/
theorem statusWord_fields (s : State) :
    (statusWord s).extractLsb' 0 1 = BitVec.ofBool s.err ∧ (statusWord s).extractLsb' 1 3 = 0 ∧
    (statusWord s).extractLsb' 4 4 = BitVec.ofNat 4 s.cause.code ∧
    (statusWord s).extractLsb' 8 1 = BitVec.ofBool s.eng.uniform ∧ (statusWord s).extractLsb' 9 23 = 0 := by
  have he := s.err.toNat_lt
  have hc := s.cause.code_lt
  have hu := s.eng.uniform.toNat_lt
  simp only [statusWord, extractLsb'_ofNat_eq_iff, BitVec.toNat_ofBool, BitVec.toNat_ofNat, BitVec.ofNat_eq_ofNat]
  omega

/-- The fields of CONFIG, its reserved bits among them (10_state.md R34). -/
theorem configWord_fields (p : Params) :
    (configWord p).extractLsb' 0 1 = BitVec.ofNat 1 (fmtCode p.fmt) ∧ (configWord p).extractLsb' 1 15 = 0 ∧
    (configWord p).extractLsb' 16 16 = BitVec.ofNat 16 (p.n - 1) := by
  have hf := fmtCode_lt p.fmt
  simp only [configWord, extractLsb'_ofNat_eq_iff, BitVec.toNat_ofNat, BitVec.ofNat_eq_ofNat]
  omega

end Sys2Proof.Machine
end

section
/-! The statements on the state of the core (10_state.md), from the lemmas above. -/

namespace Sys2Proof.Machine

/-- Settles O15: each thing a step can do keeps the invariant. -/
theorem stepKeepsTheInvariant : Obligations.StepKeepsTheInvariant := fun _ _ hs h => step_inv hs h

/-- Settles O14: hard reset meets the invariant for every legal parameter set, that of `State.reset` among them. -/
theorem hardResetMeetsTheInvariant : Obligations.HardResetMeetsTheInvariant :=
  ⟨fun _ d h => hardReset_inv d h, hardReset_inv 0 (by decide)⟩

/-- Settles O16: SCR = X1 is kept by every step by itself, so the parameter set need not be legal. -/
theorem scratchEqualsX1WhereReachable : Obligations.ScratchEqualsX1WhereReachable := by
  intro p d k script t h
  exact run_preserves (P := fun s => s.eng.scr = s.eng.h.x1) step_scr_eq_x1 k rfl h

/-- Settles O13: a hard-reset step leaves `State.hardReset` but for the host's own lists. -/
theorem hardResetValues : Obligations.HardResetValues := by
  unfold Obligations.HardResetValues
  intro holds
  have hreset : ∀ (p : Params) (d : Nat), holds p (State.hardReset p d) := fun p d =>
    ⟨rfl, rfl, rfl, rfl, rfl, rfl, rfl, rfl, rfl, rfl, length_vbufReset .., fitsAll_vbufReset .., fits_truncFmt ..,
      cdataFits_cdataReset ..⟩
  refine ⟨hreset, fun s rest hl hi => ?_⟩
  exact ⟨_, step_hardReset hi hl, hreset s.params s.draws, rfl, rfl⟩

/-- Settles O17: STATUS is put together from its fields, and CAUSE is 0 while ERR = 0 by the invariant. -/
theorem statusRegisterFields : Obligations.StatusRegisterFields := by
  intro s
  obtain ⟨herr, hlow, hcause, huniform, hhigh⟩ := statusWord_fields s
  refine ⟨herr, hlow, ?_, huniform, hhigh, fun ⟨_, _, _, hstatus, _⟩ he => ?_⟩
  · refine hcause.trans ?_
    cases s.cause <;> rfl
  · exact hcause.trans (by rw [hstatus.1 he]; rfl)

/-- Settles O18: CONFIG is put together from FMT and N alone, and no step writes the parameter set. -/
theorem configRegisterFieldsAndConstancy : Obligations.ConfigRegisterFieldsAndConstancy := by
  refine ⟨fun s hl => ?_, fun s t h => ⟨step_params h, congrArg configWord (step_params h)⟩⟩
  obtain ⟨hfmt, hreserved, hn⟩ := configWord_fields s.params
  refine ⟨hfmt.trans ?_, hreserved, ?_, fun _ => rfl⟩
  · cases s.params.fmt <;> rfl
  · simp only [Params.legal, Bool.and_eq_true, decide_eq_true_eq] at hl
    rw [readReg, hn, BitVec.toNat_ofNat]
    omega

/-- Settles O48: the commands whose effect writes coefficients are the SETC commands of the block. -/
theorem coefficientsChangeOnlyBySetc : Obligations.CoefficientsChangeOnlyBySetc := by
  intro s t h hr
  rcases step_blocks h hr with ⟨heng, hsb⟩ | ⟨w, i, rest, hw, hd, rfl⟩
  · exact ⟨fun hne => absurd (by rw [heng]) hne, fun hne => absurd (by rw [hsb]) hne⟩
  · refine ⟨fun hne => ⟨w, hw, ?_⟩, fun hne => ⟨w, hw, ?_⟩⟩
    · rcases (effect_eng_k i _).resolve_left hne with rfl | ⟨lane, rfl⟩
      · exact .inl hd
      · exact .inr ⟨lane, hd⟩
    · obtain rfl := (effect_sb_k i _).resolve_left hne
      exact hd

/-- Settles O49: the commands whose effect writes history are PROCESS and RESET of the block. -/
theorem historyChangesOnlyByProcessAndReset : Obligations.HistoryChangesOnlyByProcessAndReset := by
  intro s t h hr
  rcases step_blocks h hr with ⟨heng, hsb⟩ | ⟨w, i, rest, hw, hd, rfl⟩
  · exact ⟨fun hne => by simp [heng] at hne, fun hne => absurd (by rw [hsb]) hne⟩
  · refine ⟨fun hne => ⟨w, hw, ?_⟩, fun hne => ⟨w, hw, ?_⟩⟩
    · rcases (effect_eng_hist i _).resolve_left (by rwa [not_and_or]) with rfl | rfl
      · exact .inl hd
      · exact .inr hd
    · rcases (effect_sb_h i _).resolve_left hne with rfl | rfl
      · exact .inl hd
      · exact .inr hd

/-- Settles O51: a command that executes and writes coefficients is none of those that write history. -/
theorem noCommandWritesBothDimensions : Obligations.NoCommandWritesBothDimensions := by
  intro s t i h
  rcases exec_cases h with ⟨_, rfl⟩ | ⟨_, _, c, _, rfl⟩ | ⟨_, _, rfl⟩
  · exact ⟨.inl rfl, .inl rfl⟩
  · exact ⟨.inl rfl, .inl rfl⟩
  · constructor
    · rcases effect_eng_k i s with hk | rfl | ⟨lane, rfl⟩
      · exact .inl hk
      · exact .inr ⟨rfl, rfl⟩
      · exact .inr ⟨rfl, rfl⟩
    · rcases effect_sb_k i s with hk | rfl
      · exact .inl hk
      · exact .inr rfl

/-- Settles O52: only a command that executes writes UNIFORM, and it leaves ERR as it is. -/
theorem uniformRecordsTheLastCoefficientCommand : Obligations.UniformRecordsTheLastCoefficientCommand := by
  intro s t i h
  rcases exec_cases h with ⟨he, rfl⟩ | ⟨_, _, c, _, rfl⟩ | ⟨he, _, rfl⟩
  · rw [if_pos he]
  · rw [if_pos rfl]
  · exact (effect_uniform i s).trans (if_neg (by simp [he])).symm

end Sys2Proof.Machine
end

section
/-! SUPPORT. The host's accesses, said once each: when a port access answers a next state and which, and what it leaves of
the state (20_memory.md R52, R53, R63). -/

namespace Sys2Proof.Machine

/-! ### Port elements -/

/-- An element's value does not depend on what the host has still to do. -/
@[simp] theorem readPort_withInbox (s : State) (rest : List HostAction) (p : Port) :
    readPort { s with inbox := rest } p = readPort s p := by
  cases p <;> rfl

/-- A CDATA element is read from CDATA alone. -/
theorem readPort_cdata_congr {s t : State} (h : s.cdata = t.cdata) (i : Nat) :
    readPort s (.cdata i) = readPort t (.cdata i) := by
  rcases i with _ | _ | _ | _ | _ | _ | i <;> simp [readPort, h]

/-- Writing one CDATA index leaves the others; one beyond the six elements writes none and reads as +0. -/
theorem readPort_writePort_cdata_ne (s : State) (v : Word) {i j : Nat} (h : i ≠ j) :
    readPort (writePort s (.cdata j) v) (.cdata i) = readPort s (.cdata i) := by
  rcases j with _ | _ | _ | _ | _ | _ | j <;> rcases i with _ | _ | _ | _ | _ | _ | i <;>
    simp [readPort, writePort, Cdata.set] at h ⊢

/-- Writing one element leaves every other as it was, whether or not the written one exists (20_memory.md R52, R63). -/
theorem readPort_writePort_ne (s : State) {p q : Port} (v : Word) (h : q ≠ p) :
    readPort (writePort s p v) q = readPort s q := by
  cases p with
  | cdata j =>
    cases q with
    | cdata i => exact readPort_writePort_cdata_ne s v fun hij => h (congrArg Port.cdata hij)
    | sdata | vbuf i => rfl
  | sdata =>
    cases q with
    | cdata i => exact readPort_cdata_congr (by rfl) i
    | sdata => exact absurd rfl h
    | vbuf i => rfl
  | vbuf j =>
    cases q with
    | cdata i => exact readPort_cdata_congr (by rfl) i
    | sdata => rfl
    | vbuf i =>
      have hij : j ≠ i := fun hji => h (congrArg Port.vbuf hji.symm)
      simp [readPort, writePort, hij]

/-- A port write changes the operand ports alone. -/
theorem writePort_frame (s : State) (p : Port) (v : Word) :
    writePort s p v =
      { s with cdata := (writePort s p v).cdata, sdata := (writePort s p v).sdata, vbuf := (writePort s p v).vbuf } := by
  cases p <;> rfl

/-! ### The host's moves -/

/-- A host write is performed exactly on an element that exists with a value of the format. -/
theorem hostWrite_eq_next_iff {p : Port} {v : Word} {s t : State} :
    hostWrite p v s = .next t ↔ portExists s p = true ∧ fitsFmt s.params.fmt v = true ∧ writePort s p v = t := by
  cases hp : portExists s p with
  | false => simp [hostWrite, hp]
  | true => cases hv : fitsFmt s.params.fmt v <;> simp [hostWrite, hp, hv]

/-- A host read is performed exactly on an element that exists. -/
theorem hostRead_eq_next_iff {p : Port} {s t : State} :
    hostRead p s = .next t ↔ portExists s p = true ∧ record (.element (readPort s p)) s = t := by
  cases hp : portExists s p <;> simp [hostRead, hp]

/-- The register-read port by its index (20_memory.md R53; 10_state.md R35). -/
theorem readReg_eq (s : State) (k : Nat) :
    readReg s k = if k = 0 then statusWord s else if k = 1 then configWord s.params else 0 := by
  match k with
  | 0 | 1 => rfl
  | _ + 2 => simp [readReg]

/-- A step that answers a next state performed the host's next action. -/
theorem perform_of_step {s t : State} {a : HostAction} {rest : List HostAction} (hi : s.inbox = a :: rest)
    (h : step s = .next t) : perform a { s with inbox := rest } = .next t := by
  obtain ⟨_, ⟨hnil, _⟩ | ⟨b, later, hb, hp⟩⟩ := step_cases h
  · simp [hi] at hnil
  · obtain ⟨rfl, rfl⟩ := List.cons.inj (hi.symm.trans hb)
    exact hp

/-! ### Command words -/

/-- On the command port a word that decodes is its command; a FAULTED core executes neither. -/
theorem issueCommand_of_decode {w : CmdWord} {i : Instr} (hd : decode w = .ok i) (s : State) :
    issueCommand w s = exec i s := by
  unfold issueCommand
  cases he : s.err with
  | true => simp [exec_faulted he]
  | false => simp [hd]

theorem decode_of_decodeTableWord {nbits w : Nat} {i : Instr} (h : decodeTableWord nbits w = some i) :
    decode (BitVec.ofNat 32 (w % 2 ^ nbits)) = .ok i := by
  unfold decodeTableWord at h
  split at h
  · cases h; assumption
  · cases h

end Sys2Proof.Machine
end

section
/-! The statements on the step and the host's accesses (20_memory.md), from the lemmas above. -/

namespace Sys2Proof.Machine

/-- Settles O11: the host's write is `writePort`, whose written element is the one that changes. -/
theorem portElementReadsAsLastWritten : Obligations.PortElementReadsAsLastWritten := by
  intro s p v hlen hp hv
  exact ⟨⟨_, hostWrite_eq_next_iff.2 ⟨hp, hv, rfl⟩, fun q => readPort_writePort s p q v hlen hp⟩,
    hostRead_eq_next_iff.2 ⟨hp, rfl⟩⟩

/-- Settles O12: the step performs the host's access, and each kind of access has its own frame. -/
theorem hostAccessesHaveNoSideEffect : Obligations.HostAccessesHaveNoSideEffect := by
  intro s t a rest hi h
  have ha := perform_of_step hi h
  refine ⟨?read, ?readReg, ?write⟩
  case read =>
    rintro p rfl
    obtain ⟨_, rfl⟩ := hostRead_eq_next_iff.1 ha
    rfl
  case readReg =>
    rintro k rfl
    cases ha
    rfl
  case write =>
    rintro p v rfl
    obtain ⟨_, _, rfl⟩ := hostWrite_eq_next_iff.1 ha
    refine ⟨writePort_frame _ p v, fun q hq => ?_⟩
    rw [readPort_writePort_ne _ v hq, readPort_withInbox]

/-- Settles O7: the step issues the word, and the command port executes what it decodes to. -/
theorem stepRunsTheDecodedCommand : Obligations.StepRunsTheDecodedCommand := by
  have hstep : ∀ (s : State) (w : CmdWord) (rest : List HostAction) (i : Instr), s.params.legal = true →
      s.inbox = .command w :: rest → decode w = .ok i → step s = exec i { s with inbox := rest } :=
    fun s w rest i hl hi hd => (step_command hi hl).trans (issueCommand_of_decode hd _)
  exact ⟨hstep, fun s w i hl hd => hstep _ _ s.inbox i hl rfl (decode_of_decodeTableWord hd)⟩

/-- Settles O10: a register read records the word of its index and nothing else. -/
theorem registerReadsReturnStatusConfigOrZero : Obligations.RegisterReadsReturnStatusConfigOrZero := by
  intro s k
  rw [← readReg_eq]
  rfl

end Sys2Proof.Machine
end

section
/-! SUPPORT. The decoder said once: which words decode and to what, which raise IllegalCommand, and the words of the
opcode map as numbers (30_encoding.md R71 to R80). -/

namespace Sys2Proof

/-! ### The two directions of the encoding -/

/-- The opcode map answers a command for its own OPC and LANE. -/
theorem opcodeMap_opc (i : Instr) : opcodeMap i.opc i.laneOperand = some i := by cases i <;> rfl

/-- A command is well formed exactly when its lane operand fits LANE. -/
theorem Instr.wf_iff (i : Instr) : i.wf = true ↔ i.laneOperand < 65536 := by
  cases i <;> simp [Instr.wf, Instr.laneOperand]

/-- A command without a lane operand has LANE 0 (30_encoding.md R74). -/
theorem Instr.laneOperand_eq_zero {i : Instr} (h : i.opc ≠ 2) : i.laneOperand = 0 := by
  cases i with
  | engSetcLane lane => exact absurd rfl h
  | engSetcAll | engProcess | engReset | sbSetc | sbProcess | sbReset => rfl

/-- A word decodes exactly when the opcode map answers and neither RSV nor an unused LANE holds a bit
(30_encoding.md R73, R74, R78). -/
theorem decode_eq_ok_iff_fields {w : CmdWord} {i : Instr} :
    decode w = .ok i ↔
      opcodeMap (opcField w) (laneField w) = some i ∧ rsvField w = 0 ∧ (opcField w ≠ 2 → laneField w = 0) := by
  unfold decode
  cases opcodeMap (opcField w) (laneField w) with
  | none => simp
  | some j =>
    by_cases hr : rsvField w = 0
    · by_cases ho : opcField w = 2
      · simp [hr, ho]
      · by_cases hl : laneField w = 0 <;> simp [hr, ho, hl]
    · simp [hr]

theorem decode_encode {i : Instr} (h : i.wf = true) : decode (encode i) = .ok i := by
  rw [decode_eq_ok_iff_fields, opcField_encode h, laneField_encode h, rsvField_encode h]
  exact ⟨opcodeMap_opc i, rfl, Instr.laneOperand_eq_zero⟩

/-- A word that decodes has the command's OPC and LANE. -/
theorem fields_of_decode {w : CmdWord} {i : Instr} (h : decode w = .ok i) :
    opcField w = i.opc ∧ laneField w = i.laneOperand := by
  obtain ⟨hm, _, hl⟩ := decode_eq_ok_iff_fields.1 h
  obtain ⟨ho, rfl | ⟨hne, hz⟩⟩ := opcodeMap_some hm
  · exact ⟨ho.symm, rfl⟩
  · exact ⟨ho.symm, (hl hne).trans hz.symm⟩

theorem wf_of_decode {w : CmdWord} {i : Instr} (h : decode w = .ok i) : i.wf = true := by
  rw [Instr.wf_iff, ← (fields_of_decode h).2]
  exact laneField_lt w

theorem encode_of_decode {w : CmdWord} {i : Instr} (h : decode w = .ok i) : encode i = w := by
  obtain ⟨ho, hl⟩ := fields_of_decode h
  obtain ⟨_, hr, _⟩ := decode_eq_ok_iff_fields.1 h
  apply BitVec.eq_of_toNat_eq
  rw [encode_toNat (wf_of_decode h), word_fields w, ho, hl, hr, Nat.mul_zero, Nat.add_zero]

/-- The decoder and the encoder are inverse to each other. -/
theorem decode_eq_ok_iff {w : CmdWord} {i : Instr} : decode w = .ok i ↔ i.wf = true ∧ w = encode i :=
  ⟨fun h => ⟨wf_of_decode h, (encode_of_decode h).symm⟩, fun ⟨hw, he⟩ => he ▸ decode_encode hw⟩

/-! ### Words that encode no command -/

/-- The decoder fails exactly on an undefined OPC, a non-zero RSV, or a LANE where there is none (30_encoding.md R73, R80). -/
theorem decode_eq_error_iff (w : CmdWord) :
    (∃ e, decode w = .error e) ↔
      opcField w ∉ [0x01, 0x02, 0x03, 0x04, 0x11, 0x12, 0x13] ∨ rsvField w ≠ 0 ∨
        (opcField w ≠ 0x02 ∧ laneField w ≠ 0) := by
  rw [← opcodeMap_none (opcField w) (laneField w)]
  unfold decode
  cases opcodeMap (opcField w) (laneField w) with
  | none => simp
  | some j =>
    by_cases hr : rsvField w = 0
    · by_cases hl : opcField w ≠ 2 ∧ laneField w ≠ 0 <;> simp [hr, hl]
    · simp [hr]

/-- UNIT is the upper half of OPC, and no defined OPC has a UNIT above 1 (30_encoding.md R72, R76). -/
theorem opcField_undefined_of_unit {w : CmdWord} (h : 2 ≤ unitField w) :
    opcField w ∉ [0x01, 0x02, 0x03, 0x04, 0x11, 0x12, 0x13] := by
  have hopc : 32 ≤ opcField w := by unfold unitField at h; unfold opcField; omega
  simp only [List.mem_cons, List.not_mem_nil, or_false]
  omega

/-! ### Match and mask -/

theorem and_lowMask_toNat (w : CmdWord) : (w &&& 0x0000FFFF).toNat = w.toNat % 65536 := by
  rw [BitVec.toNat_and]
  exact Nat.and_two_pow_sub_one_eq_mod w.toNat 16

/-- The mask of a command without a lane operand covers the whole word (30_encoding.md R77). -/
theorem and_fullMask (w : CmdWord) : w &&& 0xFFFFFFFF = w := BitVec.and_allOnes

/-- ENG.SETC.LANE is matched by the low half of its word alone (30_encoding.md R77). -/
theorem decode_eq_engSetcLane_iff (w : CmdWord) :
    (∃ lane, decode w = .ok (.engSetcLane lane)) ↔ w &&& 0x0000FFFF = 0x00000002 := by
  rw [← BitVec.toNat_inj, and_lowMask_toNat]
  constructor
  · rintro ⟨lane, h⟩
    rw [← encode_of_decode h, encode_toNat (wf_of_decode h)]
    exact Nat.add_mul_mod_self_left ..
  · intro h
    have hw : (Instr.engSetcLane (laneField w)).wf = true := (Instr.wf_iff _).2 (laneField_lt w)
    refine ⟨laneField w, decode_eq_ok_iff.2 ⟨hw, BitVec.eq_of_toNat_eq ?_⟩⟩
    have hlow : w.toNat % 65536 = 2 := h
    rw [encode_toNat hw]
    simp only [Instr.opc, Instr.laneOperand, laneField]
    omega

/-- LANE is the upper half of the word (30_encoding.md R71). -/
theorem laneField_eq_shift (w : CmdWord) : laneField w = (w >>> 16).toNat := by
  rw [BitVec.toNat_ushiftRight, Nat.shiftRight_eq_div_pow]
  rfl

/-- At most one of the seven match and mask pairs of 30_encoding.md R77 holds of a word: the six whole-word matches differ
from each other, and none of them has the low half of ENG.SETC.LANE. -/
theorem matches_disjoint (w : CmdWord) :
    [w == 0x00000001, w &&& 0x0000FFFF == 0x00000002, w == 0x00000003, w == 0x00000004, w == 0x00000011,
      w == 0x00000012, w == 0x00000013].count true ≤ 1 := by
  by_cases hw : w ∈ [(0x00000001 : CmdWord), 0x00000003, 0x00000004, 0x00000011, 0x00000012, 0x00000013]
  · simp only [List.mem_cons, List.not_mem_nil, or_false] at hw
    rcases hw with rfl | rfl | rfl | rfl | rfl | rfl <;> decide +kernel
  · simp only [List.mem_cons, List.not_mem_nil, or_false, not_or, ← beq_eq_false_iff_ne] at hw
    obtain ⟨h1, h3, h4, h11, h12, h13⟩ := hw
    rw [h1, h3, h4, h11, h12, h13]
    cases w &&& 0x0000FFFF == 0x00000002 <;> decide

end Sys2Proof

namespace Sys2Proof.Machine

/-- A word that encodes no command writes STATUS and nothing else (60_exceptions.md R181). -/
theorem issueCommand_of_error {w : CmdWord} {s : State} (hd : ∃ e, decode w = .error e) (he : s.err = false) :
    issueCommand w s = .next { s with err := true, cause := .illegalCommand } := by
  obtain ⟨e, hd⟩ := hd
  simp only [issueCommand, he, hd, raiseFault_fresh he, Bool.false_eq_true, if_false]

end Sys2Proof.Machine
end

section
/-! The statements on the encoding (30_encoding.md), from the lemmas above. -/

namespace Sys2Proof.Machine

/-- Settles O2: the three fields of the encoded word are those the decoder reads. -/
theorem decodeInvertsEncode : Obligations.DecodeInvertsEncode := fun _ h => decode_encode h

/-- Settles O3: a word is its three fields, and a command that decodes fixes all of them. -/
theorem encodeInvertsDecode : Obligations.EncodeInvertsDecode := fun _ _ h => ⟨wf_of_decode h, encode_of_decode h⟩

/-- Settles O4: a command without a lane operand is one word, and ENG.SETC.LANE is one low half. -/
theorem matchAndMaskOfEachCommand : Obligations.MatchAndMaskOfEachCommand := by
  intro w
  simp only [and_fullMask]
  have hone : ∀ i : Instr, i.wf = true → (decode w = .ok i ↔ w = encode i) := fun i hi =>
    decode_eq_ok_iff.trans (and_iff_right hi)
  exact ⟨hone .engSetcAll rfl, decode_eq_engSetcLane_iff w, hone .engProcess rfl, hone .engReset rfl, hone .sbSetc rfl,
    hone .sbProcess rfl, hone .sbReset rfl,
    fun lane h => (fields_of_decode h).2.symm.trans (laneField_eq_shift w), matches_disjoint w⟩

/-- Settles O5: an undefined OPC is one of the causes for which a word does not decode. -/
theorem undefinedOpcodesAreIllegal : Obligations.UndefinedOpcodesAreIllegal :=
  ⟨fun w _ ho he => issueCommand_of_error ((decode_eq_error_iff w).2 (.inl ho)) he, by decide +kernel,
    fun _ h => opcField_undefined_of_unit h⟩

/-- Settles O6: the decoder's three checks are the three causes. -/
theorem illegalCommandExactly : Obligations.IllegalCommandExactly :=
  fun w => ⟨decode_eq_error_iff w, fun hd _ he => issueCommand_of_error hd he⟩

/-- Settles O1: the ten words are the encodings of their commands, and the four others fail a check each. -/
theorem exampleWordsDecodeAsListed : Obligations.ExampleWordsDecodeAsListed := by
  refine ⟨decode_encode (i := .engSetcAll) rfl, decode_encode (i := .engSetcLane 0) rfl,
    decode_encode (i := .engSetcLane 1) rfl, decode_encode (i := .engSetcLane 2) rfl,
    decode_encode (i := .engSetcLane 65535) rfl, decode_encode (i := .engProcess) rfl, decode_encode (i := .engReset) rfl,
    decode_encode (i := .sbSetc) rfl, decode_encode (i := .sbProcess) rfl, decode_encode (i := .sbReset) rfl, ?_⟩
  exact List.forall_mem_cons.2 ⟨⟨.opcodeUndefined, rfl⟩, List.forall_mem_cons.2 ⟨⟨.reservedNonZero, rfl⟩,
    List.forall_mem_cons.2 ⟨⟨.laneNonZero, rfl⟩, List.forall_mem_singleton.2 ⟨.opcodeUndefined, rfl⟩⟩⟩⟩

end Sys2Proof.Machine
end

section
/-! SUPPORT. An expansion run to its end, the host's writes, one command word, the host's reads: why the command may be
taken with an empty inbox, what runs of writes and of reads do, and the two whole-port writes (30_encoding.md R82, R84;
20_memory.md R54). -/

namespace Sys2Proof.Machine

/-! ### The inbox does not reach a command -/

@[simp] theorem portExists_withInbox (s : State) (rest : List HostAction) (p : Port) :
    portExists { s with inbox := rest } p = portExists s p := by
  cases p <;> rfl

theorem portExists_congr {s t : State} (h : s.params = t.params) (p : Port) : portExists s p = portExists t p := by
  cases p with
  | cdata j | sdata => rfl
  | vbuf i => simp only [portExists, h]

/-- A port write does not depend on what the host has still to do. -/
theorem writePort_withInbox (s : State) (rest : List HostAction) (p : Port) (v : Word) :
    writePort { s with inbox := rest } p v = { writePort s p v with inbox := rest } := by
  cases p <;> rfl

theorem raiseFault_withInbox (c : Cause) (s : State) (rest : List HostAction) :
    raiseFault c { s with inbox := rest } = { raiseFault c s with inbox := rest } := by
  unfold raiseFault
  split <;> rfl

/-- A coefficient command's writes do not depend on what the host has still to do, if its store does not. -/
theorem withNormalized_withInbox {store : Coeffs → State → State} (rest : List HostAction)
    (hstore : ∀ k s, store k { s with inbox := rest } = { store k s with inbox := rest }) (s : State) :
    withNormalized { s with inbox := rest } store = { withNormalized s store with inbox := rest } := by
  rcases withNormalized_cases s store with ⟨hd, hw⟩ | ⟨hd, hw⟩ <;>
    rcases withNormalized_cases { s with inbox := rest } store with ⟨hd', hw'⟩ | ⟨hd', hw'⟩
  · rw [hw, hw', raiseFault_withInbox]
  · exact absurd (hd.symm.trans hd') (by decide)
  · exact absurd (hd.symm.trans hd') (by decide)
  · rw [hw, hw', ← hstore]
    rfl

theorem unlessFaulted_withInbox {s t u : State} (rest : List HostAction) (h : unlessFaulted s t = .next u) :
    unlessFaulted { s with inbox := rest } { t with inbox := rest } = .next { u with inbox := rest } := by
  rcases Bool.eq_false_or_eq_true s.err with he | he
  · rw [unlessFaulted_faulted he] at h
    cases h
    exact unlessFaulted_faulted (by exact he) _
  · rw [unlessFaulted_fresh he] at h
    cases h
    exact unlessFaulted_fresh (by exact he) _

/-- A command does the same whatever the host has still to do, and leaves that as it is (20_memory.md R59; log 7). -/
theorem exec_withInbox {i : Instr} {s t : State} (rest : List HostAction) (h : exec i s = .next t) :
    exec i { s with inbox := rest } = .next { t with inbox := rest } := by
  cases i with
  | engSetcAll | sbSetc =>
    refine Eq.trans ?_ (unlessFaulted_withInbox rest h)
    exact congrArg (unlessFaulted _) (withNormalized_withInbox rest (fun _ _ => rfl) s)
  | engSetcLane lane =>
    refine Eq.trans ?_ (unlessFaulted_withInbox rest h)
    refine congrArg (unlessFaulted _) ?_
    by_cases hl : lane < s.params.n
    · simpa only [hl, if_true] using withNormalized_withInbox rest (fun _ _ => rfl) s
    · simpa only [hl, if_false] using raiseFault_withInbox .invalidArgument s rest
  | engProcess | engReset | sbProcess | sbReset => exact unlessFaulted_withInbox rest h

/-- A command leaves what the host has still to do and what it has read. -/
theorem exec_host {i : Instr} {s t : State} (h : exec i s = .next t) : t.inbox = s.inbox ∧ t.readouts = s.readouts := by
  rcases exec_cases h with ⟨_, rfl⟩ | ⟨_, _, c, _, rfl⟩ | ⟨_, _, rfl⟩
  · exact ⟨rfl, rfl⟩
  · exact ⟨rfl, rfl⟩
  · exact ⟨effect_inbox i s, effect_readouts i s⟩

/-- A command leaves VBUF at its N elements (10_state.md R40). -/
theorem exec_vbuf_length {i : Instr} {s t : State} (h : exec i s = .next t) (hs : s.vbuf.length = s.params.n) :
    t.vbuf.length = t.params.n := by
  rcases exec_cases h with ⟨_, rfl⟩ | ⟨_, _, c, _, rfl⟩ | ⟨_, _, rfl⟩
  · exact hs
  · exact hs
  · cases i with
    | engProcess => simp [effect]
    | engSetcAll | engSetcLane lane | engReset | sbSetc | sbProcess | sbReset => exact hs

/-! ### Runs of writes, of reads, and of one line -/

/-- The host's writes as actions, oldest first. -/
def writeActions (ws : List (Port × Word)) : List HostAction := ws.map fun pv => .write pv.1 pv.2

/-- The state after the writes. -/
def writeAll (s : State) (ws : List (Port × Word)) : State := ws.foldl (fun s pv => writePort s pv.1 pv.2) s

@[simp] theorem writeAll_params (s : State) (ws : List (Port × Word)) : (writeAll s ws).params = s.params := by
  induction ws generalizing s with
  | nil => rfl
  | cons pv ws ih => exact (ih _).trans (writePort_params ..)

@[simp] theorem writeAll_readouts (s : State) (ws : List (Port × Word)) : (writeAll s ws).readouts = s.readouts := by
  induction ws generalizing s with
  | nil => rfl
  | cons pv ws ih => exact (ih _).trans (writePort_readouts ..)

theorem writeAll_append (s : State) (vs ws : List (Port × Word)) :
    writeAll s (vs ++ ws) = writeAll (writeAll s vs) ws := List.foldl_append

/-- Writes of FLEN-bit words to elements that exist are performed one a step. -/
theorem run_writes {s : State} {ws : List (Port × Word)} (rest : List HostAction) (k : Nat) (hl : s.params.legal = true)
    (hws : ∀ pv ∈ ws, portExists s pv.1 = true ∧ fitsFmt s.params.fmt pv.2 = true) :
    Host.Core.run Sys2Proof.core (ws.length + k) { s with inbox := writeActions ws ++ rest } =
      Host.Core.run Sys2Proof.core k { writeAll s ws with inbox := rest } := by
  induction ws generalizing s with
  | nil => rw [List.length_nil, Nat.zero_add]; rfl
  | cons pv ws ih =>
    obtain ⟨⟨hp, hv⟩, hws⟩ := List.forall_mem_cons.1 hws
    have hstep : step { s with inbox := writeActions (pv :: ws) ++ rest } =
        .next { writePort s pv.1 pv.2 with inbox := writeActions ws ++ rest } := by
      rw [← writePort_withInbox]
      exact step_write (rest := writeActions ws ++ rest) rfl hl ((portExists_withInbox ..).trans hp) hv
    rw [List.length_cons, Nat.add_right_comm, core_run_next _ hstep]
    refine ih (by rwa [writePort_params]) fun q hq => ?_
    rw [writePort_params, portExists_congr (writePort_params ..)]
    exact hws q hq

/-- Reads of elements that exist are performed one a step and do nothing but hand their values to the host. -/
theorem run_reads {s : State} {ps : List Port} (hl : s.params.legal = true) (hps : ∀ p ∈ ps, portExists s p = true) :
    Host.Core.run Sys2Proof.core ps.length { s with inbox := ps.map .read } =
      .next { s with inbox := [], readouts := s.readouts ++ ps.map fun p => .element (readPort s p) } := by
  induction ps generalizing s with
  | nil => simp [Host.Core.run]
  | cons p ps ih =>
    obtain ⟨hp, hps⟩ := List.forall_mem_cons.1 hps
    have hstep : step { s with inbox := (p :: ps).map .read } =
        .next { record (.element (readPort s p)) s with inbox := ps.map .read } := by
      rw [← readPort_withInbox s ((p :: ps).map .read)]
      exact step_read (rest := ps.map .read) rfl hl ((portExists_withInbox ..).trans hp)
    have hread : ∀ q, readPort (record (.element (readPort s p)) s) q = readPort s q := by
      intro q
      cases q <;> rfl
    have hrest := ih (s := record (.element (readPort s p)) s) hl fun q hq => (portExists_congr rfl q).trans (hps q hq)
    simp only [hread, record_readouts, List.append_assoc, List.singleton_append] at hrest
    exact (core_run_next _ hstep).trans hrest

/-- A line of writes, one command and reads is that command on the written ports, its results read. -/
theorem run_line {s t : State} {i : Instr} {rs : List Readout} {k : Nat} (ws : List (Port × Word)) (ps : List Port)
    (hl : s.params.legal = true) (hi : i.wf = true)
    (hws : ∀ pv ∈ ws, portExists s pv.1 = true ∧ fitsFmt s.params.fmt pv.2 = true)
    (hps : ∀ p ∈ ps, portExists s p = true) (hx : exec i { writeAll s ws with inbox := [] } = .next t)
    (hrs : (ps.map fun p => .element (readPort t p)) = rs) (hk : k = ws.length + (ps.length + 1)) :
    Host.Core.run Sys2Proof.core k
        { s with inbox := writeActions ws ++ .command (encode i) :: ps.map .read } =
      .next { t with readouts := s.readouts ++ rs } := by
  have hparams : t.params = s.params := (exec_params hx).trans (writeAll_params s ws)
  have hstep : step { writeAll s ws with inbox := .command (encode i) :: ps.map .read } =
      .next { t with inbox := ps.map .read } := by
    rw [step_command rfl (by rwa [writeAll_params]), issueCommand_of_decode (decode_encode hi)]
    exact exec_withInbox (s := { writeAll s ws with inbox := [] }) (ps.map .read) hx
  have hinbox : t.inbox = [] := (exec_host hx).1
  have hreadouts : t.readouts = s.readouts := (exec_host hx).2.trans (writeAll_readouts s ws)
  have hreads := run_reads (hparams ▸ hl) fun p hp => (portExists_congr hparams p).trans (hps p hp)
  rw [hreadouts] at hstep
  rw [hrs, hreadouts, ← hinbox] at hreads
  subst hk
  exact (run_writes _ _ hl hws).trans ((core_run_next _ hstep).trans hreads)

/-! ### Whole ports -/

/-- CDATA written element by element (30_encoding.md R82). -/
def cdataWrites (r : Raw) : List (Port × Word) :=
  [(.cdata 0, r.a0), (.cdata 1, r.a1), (.cdata 2, r.a2), (.cdata 3, r.b0), (.cdata 4, r.b1), (.cdata 5, r.b2)]

/-- VBUF written element by element (30_encoding.md R82). -/
def vbufWrites (vs : List Word) : List (Port × Word) := (List.range vs.length).map fun i => (.vbuf i, vs.getD i plusZero)

/-- VBUF's elements below `n`, in order. -/
def vbufPorts (n : Nat) : List Port := (List.range n).map .vbuf

theorem writeAll_cdataWrites (s : State) (r : Raw) :
    writeAll s (cdataWrites r) =
      { s with cdata := { c0 := r.a0, c1 := r.a1, c2 := r.a2, c3 := r.b0, c4 := r.b1, c5 := r.b2 } } := by
  simp only [writeAll, cdataWrites, List.foldl_cons, List.foldl_nil, writePort, Cdata.set]

/-- After the first `k` writes VBUF holds `k` new elements and the old ones from there on. -/
theorem writeAll_vbufWrites_take (s : State) (vs : List Word) (hlen : s.vbuf.length = vs.length) (k : Nat)
    (hk : k ≤ vs.length) :
    writeAll s ((List.range k).map fun i => (.vbuf i, vs.getD i plusZero)) =
      { s with vbuf := vs.take k ++ s.vbuf.drop k } := by
  induction k with
  | zero => rfl
  | succ k ih =>
    have hset : (vs.take k ++ s.vbuf.drop k).set k (vs.getD k plusZero) = vs.take (k + 1) ++ s.vbuf.drop (k + 1) := by
      have hv : k < vs.length := hk
      have hk : (vs.take k).length = k := List.length_take_of_le hv.le
      rw [List.drop_eq_getElem_cons (hlen ▸ hv), List.take_succ_eq_append_getElem hv, List.set_append_right _ _ hk.le, hk,
        Nat.sub_self, List.set_cons_zero, List.getD_eq_getElem _ _ hv, List.append_assoc, List.singleton_append]
    rw [List.range_succ, List.map_append, writeAll_append, ih (Nat.le_of_succ_le hk), ← hset]
    rfl

theorem writeAll_vbufWrites (s : State) (vs : List Word) (hlen : s.vbuf.length = vs.length) :
    writeAll s (vbufWrites vs) = { s with vbuf := vs } := by
  rw [vbufWrites, writeAll_vbufWrites_take s vs hlen _ le_rfl, List.take_length, ← hlen, List.drop_length,
    List.append_nil]

/-- Reading VBUF whole gives its elements in order. -/
theorem map_readPort_vbufPorts {s : State} {n : Nat} (hlen : s.vbuf.length = n) :
    ((vbufPorts n).map fun p => Readout.element (readPort s p)) = s.vbuf.map .element := by
  subst hlen
  apply List.ext_getElem
  · simp [vbufPorts]
  · intro i h _
    simp [vbufPorts, readPort] at h ⊢
    simp [h]

theorem vbufWrites_exist_and_fit {s : State} {vs : List Word} (hlen : vs.length = s.params.n)
    (hfit : fitsAll s.params.fmt vs = true) :
    ∀ pv ∈ vbufWrites vs, portExists s pv.1 = true ∧ fitsFmt s.params.fmt pv.2 = true := by
  simp only [vbufWrites, List.forall_mem_map, List.mem_range, hlen]
  exact fun i hi => ⟨decide_eq_true hi, fits_getD i hfit⟩

theorem filt_actions (n : Nat) (vs : List Word) :
    (AsmLine.filt vs).actions n =
      writeActions (vbufWrites vs) ++ .command (encode .engProcess) :: (vbufPorts n).map .read := by
  simp [AsmLine.actions, AsmLine.expand, PlainLine.actions, writeActions, vbufWrites, vbufPorts, Function.comp_def]

/-- A coefficient line runs as its command with the six values on CDATA (30_encoding.md R84). -/
theorem run_setc {s : State} {r : Raw} (i : Instr) (hl : s.params.legal = true) (hi : i.wf = true)
    (hr : fitsAll s.params.fmt [r.a0, r.a1, r.a2, r.b0, r.b1, r.b2] = true) :
    Host.Core.run Sys2Proof.core 7 { s with inbox := writeActions (cdataWrites r) ++ [.command (encode i)] } =
      exec i { s with
        inbox := []
        cdata := { c0 := r.a0, c1 := r.a1, c2 := r.a2, c3 := r.b0, c4 := r.b1, c5 := r.b2 } } := by
  have hws : ∀ pv ∈ cdataWrites r, portExists s pv.1 = true ∧ fitsFmt s.params.fmt pv.2 = true := by
    simpa [cdataWrites, portExists, fitsAll] using hr
  obtain ⟨t, hx⟩ := exec_next i { writeAll s (cdataWrites r) with inbox := [] }
  have hrun := run_line (rs := []) (cdataWrites r) [] hl hi hws (by simp) hx rfl rfl
  rw [writeAll_cdataWrites] at hx
  have hreadouts : t.readouts = s.readouts ++ [] := (exec_host hx).2.trans (List.append_nil _).symm
  rw [← hreadouts] at hrun
  exact hrun.trans hx.symm

end Sys2Proof.Machine
end

section
/-! The statement on the pseudo-instructions (30_encoding.md R84), from the lemmas above. -/

namespace Sys2Proof.Machine

/-- Settles O38: each expansion is a line of writes, one command and reads. -/
theorem pseudoInstructionsRunAsTheirExpansions : Obligations.PseudoInstructionsRunAsTheirExpansions := by
  intro s r v vs lane hl hvbuf hlane hlen hvs hv hr run c
  refine ⟨run_setc .engSetcAll hl rfl hr, run_setc (.engSetcLane lane) hl (decide_eq_true hlane) hr,
    run_setc .sbSetc hl rfl hr, fun t hx => ?sfilt, fun t hx => ?filt⟩
  case sfilt =>
    exact run_line [(.sdata, v)] [.sdata] hl rfl (by simp [portExists, hv]) (by simp [portExists]) hx rfl rfl
  case filt =>
    have hw := writeAll_vbufWrites s vs (hvbuf.trans hlen.symm)
    have hparams := exec_params hx
    have hn : t.vbuf.length = s.params.n := (exec_vbuf_length hx hlen).trans (congrArg Params.n hparams)
    have hk : 2 * s.params.n + 1 = (vbufWrites vs).length + ((vbufPorts s.params.n).length + 1) := by
      simp only [vbufWrites, vbufPorts, List.length_map, List.length_range, hlen]
      omega
    have hrun := run_line (vbufWrites vs) (vbufPorts s.params.n) hl rfl (vbufWrites_exist_and_fit hlen hvs)
      (by simp [vbufPorts, portExists]) (by rwa [hw]) (map_readPort_vbufPorts hn) hk
    rwa [← filt_actions] at hrun

end Sys2Proof.Machine
end

section
/-! SUPPORT. Rounding to nearest with ties to even on natural numbers, and the grid of the format's values around a magnitude:
what `roundMag` picks, how near it is, and where it overflows (40_scalar_biquad.md R100, R103; log 18). -/

namespace Sys2Proof.Machine

/-! ### Division to the nearest whole number -/

/-- No whole number is nearer to `num / den` than the one picked, and one equally near leaves an even pick. -/
theorem divNearestEven_nearest (num k : Nat) {den : Nat} (hd : 0 < den) :
    ((num : Int) - (divNearestEven num den * den : Nat)).natAbs ≤ ((num : Int) - (k * den : Nat)).natAbs ∧
    (((num : Int) - (divNearestEven num den * den : Nat)).natAbs = ((num : Int) - (k * den : Nat)).natAbs →
      k = divNearestEven num den ∨ divNearestEven num den % 2 = 0) := by
  have hnum := Nat.div_add_mod' num den
  have hrem := Nat.mod_lt num hd
  have htie : 2 * (num % den) = den → divNearestEven num den % 2 = 0 := by
    unfold divNearestEven
    split_ifs <;> omega
  have hpick : divNearestEven num den = num / den ∧ 2 * (num % den) ≤ den ∨
      divNearestEven num den = num / den + 1 ∧ den ≤ 2 * (num % den) := by
    unfold divNearestEven
    split_ifs <;> omega
  generalize divNearestEven num den = r at *
  generalize num / den = q at *
  have hsucc : (q + 1) * den = q * den + den := Nat.succ_mul q den
  have hk : k * den + den ≤ q * den ∨ k = q ∨ k = q + 1 ∨ (q + 1) * den + den ≤ k * den := by
    rcases Nat.lt_or_ge k q with h | h
    · exact .inl (by simpa [Nat.succ_mul] using Nat.mul_le_mul_right den h)
    · rcases Nat.lt_or_ge (q + 1) k with h' | h'
      · exact .inr (.inr (.inr (by simpa [Nat.succ_mul] using Nat.mul_le_mul_right den h')))
      · omega
  rcases hpick with ⟨rfl, hpick⟩ | ⟨rfl, hpick⟩ <;> rcases hk with hk | rfl | rfl | hk <;> omega

theorem le_divNearestEven {num den b : Nat} (hd : 0 < den) (h : b * den ≤ num) : b ≤ divNearestEven num den := by
  have hb : b ≤ num / den := (Nat.le_div_iff_mul_le hd).2 h
  unfold divNearestEven
  split_ifs <;> omega

theorem divNearestEven_le {num den b : Nat} (hd : 0 < den) (h : num < b * den) : divNearestEven num den ≤ b := by
  have hb : num / den < b := (Nat.div_lt_iff_lt_mul hd).2 h
  unfold divNearestEven
  split_ifs <;> omega

/-- An even number is reached from the half below it on. -/
theorem even_le_divNearestEven_iff {num den b : Nat} (hd : 0 < den) (hb : b % 2 = 0) (hb0 : 0 < b) :
    b ≤ divNearestEven num den ↔ (2 * b - 1) * den ≤ 2 * num := by
  have hnum := Nat.div_add_mod' num den
  have hrem := Nat.mod_lt num hd
  obtain ⟨c, rfl⟩ : ∃ c, b = c + 1 := ⟨b - 1, by omega⟩
  have htwo : (2 * (c + 1) - 1) * den = 2 * (c * den) + den := by
    rw [show 2 * (c + 1) - 1 = 2 * c + 1 by omega]; ring
  rw [htwo]
  rcases Nat.lt_trichotomy (num / den) c with hq | hq | hq
  · have hle : num / den * den + den ≤ c * den := by simpa [Nat.succ_mul] using Nat.mul_le_mul_right den hq
    have : divNearestEven num den ≤ c := divNearestEven_le hd (by omega)
    omega
  · unfold divNearestEven
    rw [hq] at hnum ⊢
    split_ifs <;> omega
  · have hle : c * den + den ≤ num / den * den := by simpa [Nat.succ_mul] using Nat.mul_le_mul_right den hq
    have : c + 1 ≤ divNearestEven num den := le_divNearestEven hd (by rw [Nat.succ_mul]; omega)
    omega

/-! ### The binade of a magnitude -/

/-- The magnitude lies below the end of the binade whose spacing it is rounded with. -/
theorem lt_binade_end (f : Fmt) (num : Nat) {den : Nat} (hd : 0 < den) :
    num < 2 * 2 ^ f.fracBits * (den * 2 ^ spacingExp f num den) := by
  have hlog : num / den < 2 ^ (f.fracBits + spacingExp f num den + 1) :=
    Nat.lt_of_lt_of_le Nat.lt_log2_self
      (Nat.pow_le_pow_right (by decide) (by unfold spacingExp; omega))
  calc num < 2 ^ (f.fracBits + spacingExp f num den + 1) * den := (Nat.div_lt_iff_lt_mul hd).1 hlog
    _ = 2 * 2 ^ f.fracBits * (den * 2 ^ spacingExp f num den) := by ring

/-- The magnitude lies at or above the start of that binade, unless the spacing is one unit. -/
theorem binade_start_le (f : Fmt) {num den : Nat} (hd : 0 < den) (hs : spacingExp f num den ≠ 0) :
    2 ^ f.fracBits * (den * 2 ^ spacingExp f num den) ≤ num := by
  have hexp : Nat.log2 (num / den) = f.fracBits + spacingExp f num den := by unfold spacingExp at *; omega
  have hq : num / den ≠ 0 := by
    intro h0
    rw [h0, Nat.log2_zero] at hexp
    omega
  have hlog : 2 ^ (f.fracBits + spacingExp f num den) ≤ num / den := hexp ▸ Nat.log2_self_le hq
  calc 2 ^ f.fracBits * (den * 2 ^ spacingExp f num den) = 2 ^ (f.fracBits + spacingExp f num den) * den := by ring
    _ ≤ num := (Nat.le_div_iff_mul_le hd).1 hlog

/-- `r` steps of the spacing `2 ^ s` encode `r * 2 ^ s`, the start of the next binade included. -/
theorem magOf_binade (f : Fmt) {s r : Nat} (hr : r ≤ 2 * 2 ^ f.fracBits) (hs : s ≠ 0 → 2 ^ f.fracBits ≤ r) :
    magOf f (s * 2 ^ f.fracBits + r) = r * 2 ^ s := by
  have hP : 0 < 2 ^ f.fracBits := Nat.two_pow_pos _
  generalize hp : 2 ^ f.fracBits = p at *
  have hfield : ∀ {e m : Nat}, m < p → 1 ≤ e → magOf f (e * p + m) = (p + m) * 2 ^ (e - 1) := fun {e m} hm he => by
    have hge : p ≤ e * p := Nat.le_mul_of_pos_left p he
    unfold magOf
    rw [hp, if_neg (by omega), Nat.mul_comm e p, Nat.mul_add_mod, Nat.mod_eq_of_lt hm, Nat.mul_add_div hP,
      Nat.div_eq_of_lt hm, Nat.add_zero]
  rcases Nat.lt_or_ge r p with hlt | hge
  · obtain rfl : s = 0 := by by_contra h; exact absurd (hs h) (by omega)
    simp [magOf, hp, hlt]
  · rcases Nat.lt_or_ge r (2 * p) with hlt2 | hge2
    · rw [show s * p + r = (s + 1) * p + (r - p) by rw [Nat.succ_mul]; omega, hfield (by omega) (by omega),
        Nat.add_sub_cancel, Nat.add_sub_cancel' hge]
    · obtain rfl : r = 2 * p := by omega
      rw [show s * p + 2 * p = (s + 2) * p + 0 by ring, hfield hP (by omega), show s + 2 - 1 = s + 1 by omega, pow_succ]
      ring

/-- A value of the format is a whole number of steps `2 ^ s` or lies below the binade with that spacing. -/
theorem magOf_grid (f : Fmt) (s c : Nat) :
    (∃ k, magOf f c = k * 2 ^ s) ∨ magOf f c < 2 ^ f.fracBits * 2 ^ s := by
  have hP : 0 < 2 ^ f.fracBits := Nat.two_pow_pos _
  unfold magOf
  split_ifs with hc
  · exact .inr (Nat.lt_of_lt_of_le hc (Nat.le_mul_of_pos_right _ (Nat.two_pow_pos s)))
  · have he : 1 ≤ c / 2 ^ f.fracBits := (Nat.one_le_div_iff hP).2 (by omega)
    have hm := Nat.mod_lt c hP
    generalize c / 2 ^ f.fracBits = e at *
    generalize c % 2 ^ f.fracBits = m at *
    rcases Nat.lt_or_ge (e - 1) s with hlt | hge
    · refine .inr ?_
      calc (2 ^ f.fracBits + m) * 2 ^ (e - 1) < (2 * 2 ^ f.fracBits) * 2 ^ (e - 1) :=
            Nat.mul_lt_mul_of_pos_right (by omega) (Nat.two_pow_pos _)
        _ = 2 ^ f.fracBits * 2 ^ (e - 1 + 1) := by rw [pow_succ]; ring
        _ ≤ 2 ^ f.fracBits * 2 ^ s := Nat.mul_le_mul_left _ (Nat.pow_le_pow_right (by decide) hlt)
    · exact .inl ⟨(2 ^ f.fracBits + m) * 2 ^ (e - 1 - s), by
        rw [Nat.mul_assoc, ← pow_add, Nat.sub_add_cancel hge]⟩

/-- Two finite encodings of one magnitude are the same. -/
theorem magOf_injective (f : Fmt) {b c : Nat} (hb : b < f.infBits) (hc : c < f.infBits) (h : magOf f b = magOf f c) :
    b = c := by
  rw [← roundMag_magOf f Nat.one_pos hb, h, roundMag_magOf f Nat.one_pos hc]

/-! ### What `roundMag` picks -/

/-- The steps of its own spacing that a magnitude is rounded to. -/
def roundSteps (f : Fmt) (num den : Nat) : Nat := divNearestEven num (den * 2 ^ spacingExp f num den)

theorem roundMag_eq_min (f : Fmt) (num den : Nat) :
    roundMag f num den = min (spacingExp f num den * 2 ^ f.fracBits + roundSteps f num den) f.infBits := rfl

theorem roundSteps_le (f : Fmt) (num : Nat) {den : Nat} (hd : 0 < den) : roundSteps f num den ≤ 2 * 2 ^ f.fracBits :=
  divNearestEven_le (Nat.mul_pos hd (Nat.two_pow_pos _)) (lt_binade_end f num hd)

theorem le_roundSteps (f : Fmt) {num den : Nat} (hd : 0 < den) (hs : spacingExp f num den ≠ 0) :
    2 ^ f.fracBits ≤ roundSteps f num den :=
  le_divNearestEven (Nat.mul_pos hd (Nat.two_pow_pos _)) (binade_start_le f hd hs)

/-- A finite result encodes the steps picked. -/
theorem roundMag_of_finite {f : Fmt} {num den : Nat} (h : roundMag f num den < f.infBits) :
    roundMag f num den = spacingExp f num den * 2 ^ f.fracBits + roundSteps f num den := by
  rw [roundMag_eq_min] at *
  omega

theorem magOf_roundMag {f : Fmt} {num den : Nat} (hd : 0 < den) (h : roundMag f num den < f.infBits) :
    magOf f (roundMag f num den) = roundSteps f num den * 2 ^ spacingExp f num den := by
  rw [roundMag_of_finite h]
  exact magOf_binade f (roundSteps_le f num hd) (le_roundSteps f hd)

/-- A finite result is even exactly where the steps picked are. -/
theorem roundMag_mod_two {f : Fmt} {num den : Nat} (h : roundMag f num den < f.infBits) :
    roundMag f num den % 2 = roundSteps f num den % 2 := by
  have hP : 2 ^ f.fracBits = 2 * 2 ^ (f.fracBits - 1) := by cases f <;> rfl
  rw [roundMag_of_finite h, hP, Nat.mul_left_comm]
  omega

/-- The steps picked are at least as near as every value of the format; one equally near is the value picked or leaves an even
number of steps. -/
theorem roundSteps_nearest (f : Fmt) (num c : Nat) {den : Nat} (hd : 0 < den) :
    let picked := roundSteps f num den * 2 ^ spacingExp f num den
    ((num : Int) - picked * den).natAbs ≤ ((num : Int) - magOf f c * den).natAbs ∧
    (((num : Int) - picked * den).natAbs = ((num : Int) - magOf f c * den).natAbs →
      magOf f c = picked ∨ roundSteps f num den % 2 = 0) := by
  intro picked
  have hD : 0 < den * 2 ^ spacingExp f num den := Nat.mul_pos hd (Nat.two_pow_pos _)
  have hsteps : ∀ k : Nat, ((k * 2 ^ spacingExp f num den : Nat) : Int) * den =
      (k * (den * 2 ^ spacingExp f num den) : Nat) := fun k => by push_cast; ring
  have hnear := fun k => divNearestEven_nearest num k hD
  rw [← roundSteps] at hnear
  rw [show (picked : Int) * den = _ from hsteps _]
  rcases Nat.eq_zero_or_pos (spacingExp f num den) with hs | hs
  · obtain ⟨hle, htie⟩ := hnear (magOf f c)
    rw [show (magOf f c : Int) * den = (magOf f c * (den * 2 ^ spacingExp f num den) : Nat) by rw [hs]; push_cast; ring]
    exact ⟨hle, fun h => (htie h).imp_left fun hk => by simp [picked, hs, hk]⟩
  rcases magOf_grid f (spacingExp f num den) c with ⟨k, hk⟩ | hlow
  · obtain ⟨hle, htie⟩ := hnear k
    rw [hk, hsteps]
    exact ⟨hle, fun h => (htie h).imp_left fun hk' => by rw [hk']⟩
  · obtain ⟨hle, -⟩ := hnear (2 ^ f.fracBits)
    have hstart := binade_start_le f hd hs.ne'
    have hfar : magOf f c * den < 2 ^ f.fracBits * (den * 2 ^ spacingExp f num den) := by
      calc magOf f c * den < 2 ^ f.fracBits * 2 ^ spacingExp f num den * den := Nat.mul_lt_mul_of_pos_right hlow hd
        _ = 2 ^ f.fracBits * (den * 2 ^ spacingExp f num den) := by ring
    rw [← Nat.cast_mul]
    omega

/-! ### Overflow -/

theorem infBits_eq (f : Fmt) : f.infBits = (2 * f.bias - 1) * 2 ^ f.fracBits + 2 * 2 ^ f.fracBits := by cases f <;> rfl

/-- A magnitude rounds to infinity exactly where the steps picked lead out of the last binade. -/
theorem roundMag_eq_infBits_iff (f : Fmt) (num den : Nat) :
    roundMag f num den = f.infBits ↔ f.infBits ≤ spacingExp f num den * 2 ^ f.fracBits + roundSteps f num den := by
  rw [roundMag_eq_min]
  exact min_eq_right_iff

/-- Half a step below the end of the last binade is where overflow begins, whatever the spacing of the magnitude. -/
theorem infBits_le_steps_iff (f : Fmt) (num : Nat) {den : Nat} (hd : 0 < den) :
    f.infBits ≤ spacingExp f num den * 2 ^ f.fracBits + roundSteps f num den ↔
      (2 * (2 * 2 ^ f.fracBits) - 1) * (den * 2 ^ (2 * f.bias - 1)) ≤ 2 * num := by
  have hP : 0 < 2 ^ f.fracBits := Nat.two_pow_pos _
  have hr := roundSteps_le f num hd
  have hend := lt_binade_end f num hd
  have hbias : 1 ≤ 2 * f.bias - 1 := by cases f <;> decide
  rw [infBits_eq]
  generalize 2 * f.bias - 1 = e at *
  rcases Nat.lt_trichotomy (spacingExp f num den) e with hlt | heq | hgt
  · have hbits : (spacingExp f num den + 1) * 2 ^ f.fracBits ≤ e * 2 ^ f.fracBits := Nat.mul_le_mul_right _ hlt
    have hbelow : 2 * num < (2 * (2 * 2 ^ f.fracBits) - 1) * (den * 2 ^ e) := by
      calc 2 * num < 2 * (2 * 2 ^ f.fracBits * (den * 2 ^ spacingExp f num den)) := by omega
        _ = 2 * 2 ^ f.fracBits * (den * 2 ^ (spacingExp f num den + 1)) := by rw [pow_succ]; ring
        _ ≤ (2 * (2 * 2 ^ f.fracBits) - 1) * (den * 2 ^ e) :=
          Nat.mul_le_mul (by omega) (Nat.mul_le_mul_left _ (Nat.pow_le_pow_right (by decide) hlt))
    rw [Nat.succ_mul] at hbits
    omega
  · rw [heq, Nat.add_le_add_iff_left, roundSteps, heq]
    exact even_le_divNearestEven_iff (Nat.mul_pos hd (Nat.two_pow_pos _)) (by omega) (by omega)
  · have hge := le_roundSteps f hd (by omega : spacingExp f num den ≠ 0)
    have hstart := binade_start_le f hd (by omega : spacingExp f num den ≠ 0)
    have hbits : (e + 1) * 2 ^ f.fracBits ≤ spacingExp f num den * 2 ^ f.fracBits := Nat.mul_le_mul_right _ hgt
    have habove : (2 * (2 * 2 ^ f.fracBits) - 1) * (den * 2 ^ e) ≤ 2 * num := by
      calc (2 * (2 * 2 ^ f.fracBits) - 1) * (den * 2 ^ e) ≤ 2 * (2 * 2 ^ f.fracBits) * (den * 2 ^ e) :=
            Nat.mul_le_mul_right _ (by omega)
        _ = 2 * (2 ^ f.fracBits * (den * 2 ^ (e + 1))) := by rw [pow_succ]; ring
        _ ≤ 2 * (2 ^ f.fracBits * (den * 2 ^ spacingExp f num den)) :=
          Nat.mul_le_mul_left _ (Nat.mul_le_mul_left _ (Nat.mul_le_mul_left _ (Nat.pow_le_pow_right (by decide) hgt)))
        _ ≤ 2 * num := Nat.mul_le_mul_left _ hstart
    rw [Nat.succ_mul] at hbits
    omega

end Sys2Proof.Machine
end

section
/-! The statements on rounding (40_scalar_biquad.md R100, R103), from the lemmas above. -/

namespace Sys2Proof.Machine

/-- Settles O22: the steps picked are the nearest, and they are even with the encoding. -/
theorem roundingIsToNearestTiesToEven : Obligations.RoundingIsToNearestTiesToEven := by
  intro f num den c hd hfin hc
  obtain ⟨hle, htie⟩ := roundSteps_nearest f num c hd
  rw [← magOf_roundMag hd hfin] at hle htie
  refine ⟨hle, fun h => (htie h).imp (magOf_injective f hc hfin) fun heven => ?_⟩
  rw [roundMag_mod_two hfin, heven]

/-- Settles O23: the threshold is half a step of the last binade below its end. -/
theorem overflowGoesToInfinity : Obligations.OverflowGoesToInfinity := by
  intro f num den hd
  have hbias : 2 * f.bias - 1 = 2 * f.bias - 2 + 1 := by cases f <;> rfl
  have hthreshold : (2 * (2 * 2 ^ f.fracBits) - 1) * (den * 2 ^ (2 * f.bias - 1)) =
      2 * ((2 ^ (f.fracBits + 2) - 1) * 2 ^ (2 * f.bias - 2) * den) := by
    rw [hbias, show 2 * (2 * 2 ^ f.fracBits) = 2 ^ (f.fracBits + 2) by ring, pow_succ]
    ring
  rw [roundMag_eq_infBits_iff, infBits_le_steps_iff f num hd, hthreshold]
  omega

end Sys2Proof.Machine
end

section
/-! SUPPORT. The primitives by the kind of their operands: what a word of each kind unpacks to and back, one rounding for finite
operands, exactly when a result is a NaN, and the quotient and product by a unit (40_scalar_biquad.md R100 to R105; log 18). -/

namespace Sys2Proof.Machine

/-! ### Words and the values they encode -/

theorem unpack_eq_inf_iff (f : Fmt) (w : Word) (s : Bool) :
    unpack f w = .inf s ↔ isInf f w = true ∧ signOf f w = s := by
  unfold unpack isInf
  split
  · simp; omega
  · split <;> simp [*]

theorem unpack_eq_zero_iff (f : Fmt) (w : Word) (s : Bool) :
    unpack f w = .fin s 0 ↔ isZero f w = true ∧ signOf f w = s := by
  have hp := infBits_pos f
  unfold unpack isZero
  split
  · simp; omega
  · split
    · simp; omega
    · simp [magOf_eq_zero, and_comm]

theorem magOf_ne_zero_of_not_isZero {f : Fmt} {w : Word} (h : isZero f w = false) : magOf f (magBits f w) ≠ 0 := by
  simpa [isZero, magOf_eq_zero] using h

theorem isZero_zeroWord (f : Fmt) (neg : Bool) : isZero f (zeroWord f neg) = true := by
  unfold isZero zeroWord
  rw [magBits_packBits f _ (signWeight_pos f)]
  simp

theorem signOf_zeroWord (f : Fmt) (neg : Bool) : signOf f (zeroWord f neg) = neg :=
  signOf_packBits f neg (signWeight_pos f)

theorem unpack_zeroWord (f : Fmt) (neg : Bool) : unpack f (zeroWord f neg) = .fin neg 0 :=
  (unpack_eq_zero_iff f _ neg).2 ⟨isZero_zeroWord f neg, signOf_zeroWord f neg⟩

theorem zeroWord_inj (f : Fmt) (s t : Bool) : zeroWord f s = zeroWord f t ↔ s = t :=
  ⟨fun h => by rw [← signOf_zeroWord f s, h, signOf_zeroWord], congrArg _⟩

/-- An FLEN-bit zero is one of the two zero words. -/
theorem eq_zeroWord_of_isZero {f : Fmt} {w : Word} (hfit : fitsFmt f w = true) (hz : isZero f w = true) :
    w = zeroWord f (signOf f w) := by
  have hself := packBits_signOf_magBits f w hfit
  rw [show magBits f w = 0 by simpa [isZero] using hz] at hself
  exact hself.symm

theorem zeroWord_false (f : Fmt) : zeroWord f false = 0 := rfl

theorem zeroWord_true (f : Fmt) : zeroWord f true = BitVec.ofNat 64 f.signWeight := rfl

theorem magBits_lt_signWeight (f : Fmt) (w : Word) : magBits f w < f.signWeight := Nat.mod_lt _ (signWeight_pos f)

/-- The magnitude bits of a finite word come back from its exact magnitude. -/
theorem roundWord_magOf_magBits {f : Fmt} {w : Word} {den : Nat} (hw : isFinite f w = true) (hd : 0 < den) (neg : Bool) :
    roundWord f neg (magOf f (magBits f w) * den) den = packBits f neg (magBits f w) := by
  unfold roundWord
  rw [roundMag_magOf f hd (by simpa [isFinite] using hw)]

theorem infWord_eq_packBits {f : Fmt} {w : Word} (hw : isInf f w = true) (neg : Bool) :
    infWord f neg = packBits f neg (magBits f w) := by
  unfold infWord
  rw [show magBits f w = f.infBits by simpa [isInf] using hw]

theorem xor_two_pow_of_lt {m k : Nat} (h : m < 2 ^ k) : m ^^^ 2 ^ k = 2 ^ k + m := by
  have hdiv : (m ^^^ 2 ^ k) / 2 ^ k = 1 := by
    rw [Nat.xor_div_two_pow, Nat.div_eq_of_lt h, Nat.div_self (Nat.two_pow_pos k), Nat.zero_xor]
  have hmod : (m ^^^ 2 ^ k) % 2 ^ k = m := by
    rw [Nat.xor_mod_two_pow, Nat.mod_self, Nat.xor_zero, Nat.mod_eq_of_lt h]
  rw [← Nat.div_add_mod (m ^^^ 2 ^ k) (2 ^ k), hdiv, hmod, Nat.mul_one]

/-- Flipping the sign bit of a word is packing its magnitude with the other sign. -/
theorem packBits_not (f : Fmt) (s : Bool) {m : Nat} (hm : m < f.signWeight) :
    packBits f (!s) m = packBits f s m ^^^ BitVec.ofNat 64 f.signWeight := by
  have hx : m ^^^ f.signWeight = f.signWeight + m := xor_two_pow_of_lt hm
  have htrue : packBits f true m = packBits f false m ^^^ BitVec.ofNat 64 f.signWeight := by
    simp [packBits, ← BitVec.ofNat_xor, hx]
  cases s with
  | false => exact htrue
  | true => rw [htrue, BitVec.xor_assoc, BitVec.xor_self, BitVec.xor_zero]; rfl

/-! ### Sums of finite values -/

/-- The value of a sign and a magnitude, in units. -/
def signedMag (neg : Bool) (m : Nat) : Int := if neg then -m else m

theorem signedMag_not (neg : Bool) (m : Nat) : signedMag (!neg) m = -signedMag neg m := by
  cases neg <;> simp [signedMag]

/-- A finite sum is the exact sum rounded once; an exact zero is -0 only where both addends are negative. -/
theorem addFp_fin (f : Fmt) (d : Word) (s t : Bool) (m n : Nat) :
    addFp f d (.fin s m) (.fin t n) =
      if signedMag s m + signedMag t n = 0 then zeroWord f (s && t)
      else roundWord f (decide (signedMag s m + signedMag t n < 0)) (signedMag s m + signedMag t n).natAbs 1 := by
  have hround : ∀ {neg : Bool} {v : Int} {k : Nat}, v = signedMag neg k → v ≠ 0 →
      roundWord f neg k 1 = roundWord f (decide (v < 0)) v.natAbs 1 := by
    intro neg v k hv hne
    cases neg <;> simp only [signedMag, Bool.false_eq_true, if_true, if_false] at hv
    · rw [decide_eq_false (by omega), show v.natAbs = k by omega]
    · rw [decide_eq_true (by omega), show v.natAbs = k by omega]
  rw [addFp]
  by_cases hst : s = t
  · subst hst
    rw [if_pos rfl]
    have hv : signedMag s m + signedMag s n = signedMag s (m + n) := by cases s <;> simp [signedMag]; omega
    split_ifs with h0
    · have hm : m + n = 0 := by cases s <;> simp [signedMag] at h0 <;> omega
      rw [hm, Bool.and_self, roundWord_zero f s Nat.one_pos]
    · exact hround hv h0
  · obtain rfl : t = !s := by cases s <;> cases t <;> simp_all
    have hv : signedMag s m + signedMag (!s) n = signedMag s m - signedMag s n := by rw [signedMag_not]; rfl
    have hmn : signedMag s m - signedMag s n = 0 ↔ m = n := by cases s <;> simp [signedMag] <;> omega
    rw [if_neg hst, hv, Bool.and_not_self]
    rcases Nat.lt_trichotomy m n with hlt | rfl | hlt
    · rw [if_neg (by omega), if_neg (by omega), if_neg (by rw [hmn]; omega)]
      exact hround (by cases s <;> simp [signedMag] <;> omega) (by rw [Ne, hmn]; omega)
    · rw [if_pos rfl, if_pos (hmn.2 rfl)]
    · rw [if_neg (by omega), if_pos hlt, if_neg (by rw [hmn]; omega)]
      exact hround (by cases s <;> simp [signedMag] <;> omega) (by rw [Ne, hmn]; omega)

/-! ### Quotients of finite values -/

theorem fdiv_finite {f : Fmt} {a b : Word} (d : Word) (ha : isFinite f a = true) (hb : isFinite f b = true)
    (hb0 : isZero f b = false) :
    fdiv f d a b =
      roundWord f (signOf f a ^^ signOf f b) (magOf f (magBits f a) * 2 ^ f.unitExp) (magOf f (magBits f b)) := by
  rw [fdiv, unpack_of_isFinite ha, unpack_of_isFinite hb]
  exact if_neg (magOf_ne_zero_of_not_isZero hb0)

theorem fdiv_zero {f : Fmt} {a b : Word} (d : Word) (ha : isFinite f a = true) (ha0 : isZero f a = false)
    (hb0 : isZero f b = true) : fdiv f d a b = infWord f (signOf f a ^^ signOf f b) := by
  rw [fdiv, unpack_of_isFinite ha, unpack_of_isZero hb0, divFp, if_pos rfl]
  exact if_neg (magOf_ne_zero_of_not_isZero ha0)

/-! ### Exactly which results are NaNs -/

theorem isNaN_addFp_iff (f : Fmt) (d : Word) (x y : Fp) :
    isNaN f (addFp f d x y) = true ↔ x = .nan ∨ y = .nan ∨ ∃ s, x = .inf s ∧ y = .inf (!s) := by
  rcases x with _ | s | ⟨s, m⟩ <;> rcases y with _ | t | ⟨t, n⟩
  case inf.inf => cases s <;> cases t <;> simp [addFp, isNaN_quietNaN, isNaN_infWord]
  case fin.fin =>
    rw [addFp_fin]
    split <;> simp [isNaN_zeroWord, isNaN_roundWord]
  all_goals simp [addFp, isNaN_quietNaN, isNaN_infWord]

theorem isNaN_mulFp_iff (f : Fmt) (d : Word) (x y : Fp) :
    isNaN f (mulFp f d x y) = true ↔
      x = .nan ∨ y = .nan ∨ (∃ s t, x = .fin s 0 ∧ y = .inf t) ∨ ∃ s t, x = .inf s ∧ y = .fin t 0 := by
  rcases x with _ | s | ⟨s, m⟩ <;> rcases y with _ | t | ⟨t, n⟩
  case inf.fin => by_cases hn : n = 0 <;> simp [mulFp, hn, isNaN_quietNaN, isNaN_infWord]
  case fin.inf => by_cases hm : m = 0 <;> simp [mulFp, hm, isNaN_quietNaN, isNaN_infWord]
  all_goals simp [mulFp, isNaN_quietNaN, isNaN_infWord, isNaN_roundWord]

theorem isNaN_divFp_iff (f : Fmt) (d : Word) (x y : Fp) :
    isNaN f (divFp f d x y) = true ↔
      x = .nan ∨ y = .nan ∨ (∃ s t, x = .fin s 0 ∧ y = .fin t 0) ∨ ∃ s t, x = .inf s ∧ y = .inf t := by
  rcases x with _ | s | ⟨s, m⟩ <;> rcases y with _ | t | ⟨t, n⟩
  case fin.fin =>
    by_cases hn : n = 0
    · by_cases hm : m = 0 <;> simp [divFp, hn, hm, isNaN_quietNaN, isNaN_infWord]
    · simp [divFp, hn, isNaN_roundWord]
  all_goals simp [divFp, isNaN_quietNaN, isNaN_infWord, isNaN_zeroWord]

theorem Fp.neg_eq_nan_iff (x : Fp) : x.neg = .nan ↔ x = .nan := by cases x <;> simp [Fp.neg]

theorem Fp.neg_eq_inf_iff (x : Fp) (s : Bool) : x.neg = .inf (!s) ↔ x = .inf s := by cases x <;> simp [Fp.neg]

theorem isNaN_fmul_iff (f : Fmt) (d a b : Word) :
    isNaN f (fmul f d a b) = true ↔ isNaN f a = true ∨ isNaN f b = true ∨
      (isZero f a = true ∧ isInf f b = true) ∨ (isInf f a = true ∧ isZero f b = true) := by
  rw [fmul, isNaN_mulFp_iff]
  simp [unpack_eq_nan_iff, unpack_eq_inf_iff, unpack_eq_zero_iff]

theorem isNaN_fadd_iff (f : Fmt) (d a b : Word) :
    isNaN f (fadd f d a b) = true ↔ isNaN f a = true ∨ isNaN f b = true ∨
      (isInf f a = true ∧ isInf f b = true ∧ signOf f a ≠ signOf f b) := by
  rw [fadd, isNaN_addFp_iff]
  simp [unpack_eq_nan_iff, unpack_eq_inf_iff, and_assoc, Bool.eq_not, eq_comm (a := signOf f b)]

theorem isNaN_fsub_iff (f : Fmt) (d a b : Word) :
    isNaN f (fsub f d a b) = true ↔ isNaN f a = true ∨ isNaN f b = true ∨
      (isInf f a = true ∧ isInf f b = true ∧ signOf f a = signOf f b) := by
  rw [fsub, isNaN_addFp_iff]
  simp [unpack_eq_nan_iff, unpack_eq_inf_iff, Fp.neg_eq_nan_iff, Fp.neg_eq_inf_iff, and_assoc, eq_comm (a := signOf f b)]

theorem isNaN_fdiv_iff (f : Fmt) (d a b : Word) :
    isNaN f (fdiv f d a b) = true ↔ isNaN f a = true ∨ isNaN f b = true ∨
      (isZero f a = true ∧ isZero f b = true) ∨ (isInf f a = true ∧ isInf f b = true) := by
  rw [fdiv, isNaN_divFp_iff]
  simp [unpack_eq_nan_iff, unpack_eq_inf_iff, unpack_eq_zero_iff]

/-! ### The drawn NaN -/

/-- A primitive's NaN is the drawn one: its result is a NaN for every draw, or for none. -/
theorem eq_quietNaN_of_isNaN {op : Fmt → Word → Word → Word → Word}
    (hop : op = fmul ∨ op = fadd ∨ op = fsub ∨ op = fdiv) {f : Fmt} {d a b : Word} (h : isNaN f (op f d a b) = true)
    (e : Word) : op f e a b = quietNaN f e := by
  have hdraw : (∀ d, op f d a b = quietNaN f d) ∨ ∃ w, isNaN f w = false ∧ ∀ d, op f d a b = w := by
    rcases hop with rfl | rfl | rfl | rfl
    · exact mulFp_draw f _ _
    · exact addFp_draw f _ _
    · exact addFp_draw f _ _
    · exact divFp_draw f _ _
  rcases hdraw with hdraw | ⟨w, hw, hdraw⟩
  · exact hdraw e
  · rw [hdraw, hw] at h
    cases h

theorem infBits_eq_mul_quietWeight (f : Fmt) : f.infBits = f.quietWeight * (2 * (2 * f.bias + 1)) := by cases f <;> rfl

theorem signWeight_eq_infBits_add (f : Fmt) : f.signWeight = f.infBits + 2 * f.quietWeight := by cases f <;> rfl

/-- A drawn NaN has its quiet bit set. -/
theorem quietBit_quietNaN (f : Fmt) (d : Word) : magBits f (quietNaN f d) / f.quietWeight % 2 = 1 := by
  have hq := quietWeight_pos f
  unfold quietNaN
  rw [magBits_packBits f _ (quietMag_lt f d), infBits_eq_mul_quietWeight, ← Nat.mul_succ, Nat.mul_add_div hq,
    Nat.div_eq_of_lt (Nat.mod_lt _ hq)]
  omega

/-- The magnitude of a quiet NaN is ∞'s with the quiet bit and a payload below it. -/
theorem exists_payload {f : Fmt} {v : Word} (hnan : isNaN f v = true) (hquiet : magBits f v / f.quietWeight % 2 = 1) :
    ∃ p, p < f.quietWeight ∧ magBits f v = f.infBits + f.quietWeight + p := by
  have hq := quietWeight_pos f
  have hlt := magBits_lt_signWeight f v
  rw [signWeight_eq_infBits_add] at hlt
  simp only [isNaN, decide_eq_true_eq] at hnan
  obtain ⟨x, hx⟩ : ∃ x, magBits f v = f.infBits + x := ⟨magBits f v - f.infBits, by omega⟩
  rw [hx, infBits_eq_mul_quietWeight, Nat.mul_add_div hq] at hquiet
  have hge : f.quietWeight ≤ x := by
    by_contra hlow
    rw [Nat.div_eq_of_lt (by omega)] at hquiet
    omega
  exact ⟨x - f.quietWeight, by omega, by omega⟩

/-- Every quiet NaN of the format is drawn: the draw has its sign in the top bit and its payload below the quiet bit. -/
theorem exists_quietNaN_eq {f : Fmt} {v : Word} (hfit : fitsFmt f v = true) (hnan : isNaN f v = true)
    (hquiet : magBits f v / f.quietWeight % 2 = 1) : ∃ d, quietNaN f d = v := by
  obtain ⟨p, hp, hmag⟩ := exists_payload hnan hquiet
  have hp64 : p < Fmt.binary64.signWeight := Nat.lt_trans hp (by cases f <;> decide)
  have hdvd : ∀ s : Bool, ((if s then Fmt.binary64.signWeight else 0) + p) % f.quietWeight = p := by
    intro s
    have hweight : Fmt.binary64.signWeight % f.quietWeight = 0 := by cases f <;> decide
    cases s <;> simp [Nat.add_mod, hweight, Nat.mod_eq_of_lt hp]
  have hmsb : ∀ s : Bool, (packBits .binary64 s p).msb = s := by
    intro s
    rw [BitVec.msb_eq_decide, packBits_toNat _ s hp64]
    have hsw : Fmt.binary64.signWeight = 2 ^ 63 := rfl
    cases s <;> simp <;> omega
  refine ⟨packBits .binary64 (signOf f v) p, ?_⟩
  rw [quietNaN, hmsb, packBits_toNat _ _ hp64, hdvd, ← hmag, packBits_signOf_magBits f v hfit]

/-! ### Products and quotients by a unit -/

theorem unpack_one (f : Fmt) : unpack f (BitVec.ofNat 64 (f.bias * 2 ^ f.fracBits)) = .fin false (2 ^ f.unitExp) := by
  cases f <;> decide +kernel

theorem unpack_minusOne (f : Fmt) :
    unpack f (BitVec.ofNat 64 (f.signWeight + f.bias * 2 ^ f.fracBits)) = .fin true (2 ^ f.unitExp) := by
  cases f <;> decide +kernel

/-- A gain that is no NaN, divided by 1 or -1, is itself but for the sign (40_scalar_biquad.md R105). -/
theorem fdiv_unit {f : Fmt} {b : Word} {t : Bool} (hb : unpack f b = .fin t (2 ^ f.unitExp)) (d : Word) {g : Word}
    (hg : isNaN f g = false) : fdiv f d g b = packBits f (signOf f g ^^ t) (magBits f g) := by
  have hunit : 0 < 2 ^ f.unitExp := Nat.two_pow_pos _
  rcases unpack_cases f g with ⟨h, _⟩ | ⟨h, hu⟩ | ⟨h, hu⟩
  · simp [hg] at h
  · rw [fdiv, hu, hb]
    exact infWord_eq_packBits h _
  · rw [fdiv, hu, hb, divFp, if_neg hunit.ne']
    exact roundWord_magOf_magBits h hunit _

/-- A value that is no NaN, multiplied by 1 or -1, is itself but for the sign. -/
theorem fmul_unit {f : Fmt} {a : Word} {t : Bool} (ha : unpack f a = .fin t (2 ^ f.unitExp)) (d : Word) {g : Word}
    (hg : isNaN f g = false) : fmul f d a g = packBits f (t ^^ signOf f g) (magBits f g) := by
  have hunit : 0 < 2 ^ f.unitExp := Nat.two_pow_pos _
  rcases unpack_cases f g with ⟨h, _⟩ | ⟨h, hu⟩ | ⟨h, hu⟩
  · simp [hg] at h
  · rw [fmul, hu, ha, mulFp, if_neg hunit.ne']
    exact infWord_eq_packBits h _
  · rw [fmul, hu, ha, mulFp, Nat.mul_comm]
    exact roundWord_magOf_magBits h hunit _

end Sys2Proof.Machine
end

section
/-! The statements on the primitives and on NORM (40_scalar_biquad.md R100 to R105), from the lemmas above. -/

namespace Sys2Proof.Machine

/-- Settles O24: each operand's kind is what it unpacks to, and the primitive's arm for the two kinds gives the result. -/
theorem finiteOperationsRoundTheExactResult : Obligations.FiniteOperationsRoundTheExactResult := by
  refine ⟨fun f d a b ha hb => ?finite, fun f d a b ha hb => ?infFinite, fun f d a b ha hb => ?finiteInf,
    fun f d a b ha hb => ?infInf, ?patterns⟩
  case finite =>
    have hua := unpack_of_isFinite ha
    have hub := unpack_of_isFinite hb
    intro m n va vb
    have hadd : fadd f d a b = if va + vb = 0 then zeroWord f (signOf f a && signOf f b)
        else roundWord f (decide (va + vb < 0)) (va + vb).natAbs 1 := by
      rw [fadd, hua, hub]
      exact addFp_fin f d _ _ m n
    have hsub : fsub f d a b = if va - vb = 0 then zeroWord f (signOf f a && !signOf f b)
        else roundWord f (decide (va - vb < 0)) (va - vb).natAbs 1 := by
      have hneg := addFp_fin f d (signOf f a) (!signOf f b) m n
      rw [signedMag_not, ← Int.sub_eq_add_neg] at hneg
      rw [fsub, hua, hub]
      exact hneg
    refine ⟨?_, fdiv_finite d ha hb, fdiv_zero d ha, fun h => hadd.trans (if_neg h), fun h => hadd.trans (if_pos h),
      fun h => hsub.trans (if_neg h), fun h => hsub.trans (if_pos h)⟩
    rw [fmul, hua, hub]
    rfl
  case infFinite =>
    simp only [fadd, fsub, fmul, fdiv, unpack_of_isInf ha, unpack_of_isFinite hb]
    exact ⟨rfl, rfl, fun hb0 => if_neg (magOf_ne_zero_of_not_isZero hb0), rfl⟩
  case finiteInf =>
    simp only [fadd, fsub, fmul, fdiv, unpack_of_isFinite ha, unpack_of_isInf hb]
    exact ⟨rfl, rfl, fun ha0 => if_neg (magOf_ne_zero_of_not_isZero ha0), rfl⟩
  case infInf =>
    simp only [fadd, fsub, fmul, unpack_of_isInf ha, unpack_of_isInf hb]
    exact ⟨fun h => if_pos h, fun h => if_pos (Bool.eq_not_iff.2 h), rfl⟩
  case patterns => exact ⟨by decide, by decide, by decide, by decide, by decide, by decide, zeroWord_false⟩

/-- Settles O25: the NaN arms of the primitives, and the draw that gives a quiet NaN its sign and payload. -/
theorem naNResultsExactlyQuietAndFree : Obligations.NaNResultsExactlyQuietAndFree := by
  refine ⟨fun f d a b => ⟨isNaN_fmul_iff f d a b, isNaN_fadd_iff f d a b, isNaN_fsub_iff f d a b, isNaN_fdiv_iff f d a b⟩,
    fun op hop f d a b h => ⟨?_, fun v hfit hnan hquiet => ?_⟩⟩
  · rw [eq_quietNaN_of_isNaN hop h]
    exact quietBit_quietNaN f d
  · obtain ⟨e, he⟩ := exists_quietNaN_eq hfit hnan hquiet
    exact ⟨e, (eq_quietNaN_of_isNaN hop h e).trans he⟩

/-- Settles O19: NORM's check under each policy. -/
theorem normDividesTheFiveGainsByB0 : Obligations.NormDividesTheFiveGainsByB0 := by
  intro p d r
  unfold normCoeffs degenerate
  cases p.policy with
  | propagate => rfl
  | fault => simp only [true_and]; rfl

/-- Settles O26: the quotient by a zero, an infinity, a NaN and a unit, and the policy's one effect on NORM. -/
theorem normCornerCases : Obligations.NormCornerCases := by
  refine ⟨fun f d g b => ⟨fun hb => ⟨fun hg hg0 => ?byZero, fun hg => ?zeroByZero⟩,
    fun hb => ⟨fun hg => ?byInf, fun hg => ?infByInf⟩, fun hb => ?byNaN,
    fun hfit hg => ⟨fun hb => ?byOne, fun hb => ?byMinusOne⟩⟩, ?oneThird, fun p d r hp => ?policy⟩
  case byZero =>
    rw [fdiv_zero d hg hg0 hb]
    exact ⟨isInf_infWord f _, signOf_infWord f _⟩
  case zeroByZero => exact (isNaN_fdiv_iff f d g b).2 (by rcases hg with hg | hg <;> simp [hg, hb])
  case byInf =>
    rw [fdiv, unpack_of_isFinite hg, unpack_of_isInf hb]
    exact isZero_zeroWord f _
  case infByInf => exact (isNaN_fdiv_iff f d g b).2 (by simp [hg, hb])
  case byNaN => exact (isNaN_fdiv_iff f d g b).2 (by simp [hb])
  case byOne => rw [fdiv_unit (hb ▸ unpack_one f) d hg, Bool.xor_false, packBits_signOf_magBits f g hfit]
  case byMinusOne =>
    rw [fdiv_unit (hb ▸ unpack_minusOne f) d hg, Bool.xor_true, packBits_not f _ (magBits_lt_signWeight f g),
      packBits_signOf_magBits f g hfit]
  case oneThird =>
    exact fun d => ⟨(fdiv_finite d (by decide) (by decide) (by decide)).trans (by decide +kernel),
      (fdiv_finite d (by decide) (by decide) (by decide)).trans (by decide +kernel)⟩
  case policy =>
    unfold normCoeffs degenerate
    simp [hp]

end Sys2Proof.Machine
end

section
/-! SUPPORT. The recurrence BQ on zeros, NaNs and infinities: what one sum or product passes on, and the nine operations chained
(40_scalar_biquad.md R106 to R108). -/

namespace Sys2Proof.Machine

/-! ### Zeros -/

/-- A zero coefficient times a finite value is a zero of the exclusive-or of the signs. -/
theorem fmul_plusZero {f : Fmt} {v : Word} (d : Word) (hv : isFinite f v = true) : fmul f d 0 v = zeroWord f (signOf f v) := by
  rw [fmul, ← zeroWord_false f, unpack_zeroWord, unpack_of_isFinite hv, mulFp, Nat.zero_mul, Bool.false_xor]
  exact roundWord_zero f _ (Nat.two_pow_pos _)

theorem isFinite_plusZero (f : Fmt) : isFinite f 0 = true := by cases f <;> decide

/-- A sum of zeros is -0 only where both are (40_scalar_biquad.md R103). -/
theorem fadd_zeroWord (f : Fmt) (d : Word) (s t : Bool) :
    fadd f d (zeroWord f s) (zeroWord f t) = zeroWord f (s && t) := by
  rw [fadd, unpack_zeroWord, unpack_zeroWord, addFp_fin]
  exact if_pos (by cases s <;> cases t <;> rfl)

theorem fsub_zeroWord (f : Fmt) (d : Word) (s t : Bool) :
    fsub f d (zeroWord f s) (zeroWord f t) = zeroWord f (s && !t) := by
  rw [fsub, unpack_zeroWord, unpack_zeroWord, Fp.neg, addFp_fin]
  exact if_pos (by cases s <;> cases t <;> rfl)

/-- With every coefficient +0 and finite operands BQ gives a zero, -0 in one combination of signs (log 16). -/
theorem bq_coeffsZero {f : Fmt} {h : Hist} {x : Word} (d : Nat) (hx : isFinite f x = true) (hx1 : isFinite f h.x1 = true)
    (hx2 : isFinite f h.x2 = true) (hy1 : isFinite f h.y1 = true) (hy2 : isFinite f h.y2 = true) :
    bq f d coeffsZero h x =
      zeroWord f (signOf f x && signOf f h.x1 && signOf f h.x2 && !signOf f h.y1 && !signOf f h.y2) := by
  simp only [bq, coeffsZero, plusZero, fmul_plusZero, hx, hx1, hx2, hy1, hy2, fadd_zeroWord, fsub_zeroWord]

/-! ### Adding and subtracting +0 -/

/-- Adding a zero keeps every value that is no NaN, but for -0 + +0, which is +0 (40_scalar_biquad.md R103). -/
theorem addFp_zero (f : Fmt) (d : Word) {w : Word} (hfit : fitsFmt f w = true) (hn : isNaN f w = false) (t : Bool) :
    addFp f d (unpack f w) (.fin t 0) = if w = zeroWord f true ∧ t = false then zeroWord f false else w := by
  have hself := packBits_signOf_magBits f w hfit
  rcases unpack_cases f w with ⟨h, _⟩ | ⟨h, hu⟩ | ⟨h, hu⟩
  · simp [hn] at h
  · have hne : w ≠ zeroWord f true := fun he => by
      rw [he, unpack_zeroWord] at hu
      cases hu
    rw [hu, if_neg (by simp [hne]), addFp, infWord_eq_packBits h, hself]
  · rcases Bool.eq_false_or_eq_true (isZero f w) with hz | hz
    · rw [eq_zeroWord_of_isZero hfit hz, unpack_zeroWord, addFp_fin]
      cases signOf f w <;> cases t <;> simp [signedMag, zeroWord_inj]
    · have hm := magOf_ne_zero_of_not_isZero hz
      have hne : w ≠ zeroWord f true := fun he => by simp [he, isZero_zeroWord] at hz
      have hround := roundWord_magOf_magBits h Nat.one_pos (signOf f w)
      rw [Nat.mul_one, hself] at hround
      rw [hu, if_neg (by simp [hne]), addFp, Nat.add_zero, Nat.sub_zero, hround, if_neg hm, if_pos (Nat.pos_of_ne_zero hm),
        ite_self]

theorem fadd_plusZero (f : Fmt) (d : Word) {w : Word} (hfit : fitsFmt f w = true) (hn : isNaN f w = false) :
    fadd f d w 0 = if w = zeroWord f true then 0 else w := by
  rw [fadd, ← zeroWord_false f, unpack_zeroWord, addFp_zero f d hfit hn]
  simp

/-- Subtracting +0 changes nothing, -0 included. -/
theorem fsub_plusZero (f : Fmt) (d : Word) {w : Word} (hfit : fitsFmt f w = true) (hn : isNaN f w = false) :
    fsub f d w 0 = w := by
  rw [fsub, ← zeroWord_false f, unpack_zeroWord, Fp.neg, addFp_zero f d hfit hn]
  simp

theorem signOf_plusZero (f : Fmt) : signOf f 0 = false := signOf_zeroWord f false

theorem fmul_plusZero_plusZero (f : Fmt) (d : Word) : fmul f d 0 0 = 0 := by
  rw [fmul_plusZero d (isFinite_plusZero f), signOf_plusZero, zeroWord_false]

/-- Adding two +0 and subtracting two +0 in BQ's order turns -0 into +0 and keeps every other value. -/
theorem plusZero_terms (f : Fmt) (d1 d2 d3 d4 : Word) {x : Word} (hfit : fitsFmt f x = true) (hn : isNaN f x = false) :
    fsub f d4 (fsub f d3 (fadd f d2 (fadd f d1 x 0) 0) 0) 0 = if x = zeroWord f true then 0 else x := by
  have hkeep : ∀ {w : Word}, fitsFmt f w = true → isNaN f w = false → w ≠ zeroWord f true →
      fsub f d4 (fsub f d3 (fadd f d2 w 0) 0) 0 = w := fun hw hwn hne => by
    rw [fadd_plusZero f _ hw hwn, if_neg hne, fsub_plusZero f _ hw hwn, fsub_plusZero f _ hw hwn]
  rw [fadd_plusZero f _ hfit hn]
  split_ifs with h
  · have hzero : zeroWord f false ≠ zeroWord f true := by simp [zeroWord_inj]
    exact hkeep (fits_zeroWord f false) (isNaN_zeroWord f false) hzero
  · exact hkeep hfit hn h

/-! ### NaNs -/

/-- A NaN among the five products reaches the output (40_scalar_biquad.md R108). -/
theorem isNaN_bq_of_product {f : Fmt} {d : Nat} {k : Coeffs} {h : Hist} {x : Word}
    (hp : ∃ cv ∈ [(k.a0, x), (k.a1, h.x1), (k.a2, h.x2), (k.b1, h.y1), (k.b2, h.y2)],
      ∀ e, isNaN f (fmul f e cv.1 cv.2) = true) : isNaN f (bq f d k h x) = true := by
  simp only [List.exists_mem_cons_iff, List.not_mem_nil, false_and, exists_false, or_false] at hp
  simp only [bq, isNaN_fsub_iff, isNaN_fadd_iff]
  rcases hp with hp | hp | hp | hp | hp <;> simp only [hp, true_or, or_true]

/-- A NaN among the ten operands of BQ reaches the output. -/
theorem isNaN_bq_of_operand {f : Fmt} {d : Nat} {k : Coeffs} {h : Hist} {x : Word}
    (hv : ∃ v ∈ [k.a0, k.a1, k.a2, k.b1, k.b2, h.x1, h.x2, h.y1, h.y2, x], isNaN f v = true) :
    isNaN f (bq f d k h x) = true := by
  apply isNaN_bq_of_product
  simp only [List.exists_mem_cons_iff, List.not_mem_nil, false_and, exists_false, or_false] at hv ⊢
  rcases hv with hv | hv | hv | hv | hv | hv | hv | hv | hv | hv <;>
    simp only [isNaN_fmul_iff, hv, true_or, or_true, implies_true]

/-- A zero coefficient of an infinite input or tap gives a NaN. -/
theorem isNaN_bq_of_zero_mul_inf {f : Fmt} {d : Nat} {k : Coeffs} {h : Hist} {x : Word}
    (hp : ∃ cv ∈ [(k.a0, x), (k.a1, h.x1), (k.a2, h.x2), (k.b1, h.y1), (k.b2, h.y2)],
      isZero f cv.1 = true ∧ isInf f cv.2 = true) : isNaN f (bq f d k h x) = true := by
  obtain ⟨cv, hmem, hcv⟩ := hp
  exact isNaN_bq_of_product ⟨cv, hmem, fun e => (isNaN_fmul_iff f e _ _).2 (.inr (.inr (.inl hcv)))⟩

/-! ### Infinities of one sign -/

/-- `w` is no NaN, and if it is infinite its sign is `neg`. -/
def AtMostInf (f : Fmt) (neg : Bool) (w : Word) : Prop := isNaN f w = false ∧ (isInf f w = true → signOf f w = neg)

theorem AtMostInf.unpack {f : Fmt} {neg : Bool} {w : Word} (h : AtMostInf f neg w) :
    unpack f w = .inf neg ∨ ∃ s m, unpack f w = .fin s m := by
  obtain ⟨hn, hs⟩ := h
  rcases unpack_cases f w with ⟨h, _⟩ | ⟨h, hu⟩ | ⟨_, hu⟩
  · simp [hn] at h
  · exact .inl (hs h ▸ hu)
  · exact .inr ⟨_, _, hu⟩

/-- A sum of terms whose infinities all have one sign is no NaN, and is that infinity if a term is. -/
theorem addFp_oneSign {f : Fmt} {neg : Bool} {x y : Fp} (d : Word) (hx : x = .inf neg ∨ ∃ s m, x = .fin s m)
    (hy : y = .inf neg ∨ ∃ s m, y = .fin s m) :
    isNaN f (addFp f d x y) = false ∧ (x = .inf neg ∨ y = .inf neg → addFp f d x y = infWord f neg) := by
  rcases hx with rfl | ⟨s, m, rfl⟩ <;> rcases hy with rfl | ⟨t, n, rfl⟩
  case inr.inr => exact ⟨by rw [← Bool.not_eq_true, isNaN_addFp_iff]; simp, by simp⟩
  all_goals exact ⟨by simp [addFp, isNaN_infWord], fun _ => by simp [addFp]⟩

theorem fadd_oneSign {f : Fmt} {neg : Bool} {a b : Word} (d : Word) (ha : AtMostInf f neg a) (hb : AtMostInf f neg b) :
    isNaN f (fadd f d a b) = false ∧ (isInf f a = true ∨ isInf f b = true → fadd f d a b = infWord f neg) := by
  obtain ⟨hn, hinf⟩ := addFp_oneSign (f := f) d ha.unpack hb.unpack
  exact ⟨hn, fun h => hinf (h.imp (fun hi => (unpack_eq_inf_iff f a neg).2 ⟨hi, ha.2 hi⟩)
    fun hi => (unpack_eq_inf_iff f b neg).2 ⟨hi, hb.2 hi⟩)⟩

theorem fsub_oneSign {f : Fmt} {neg : Bool} {a b : Word} (d : Word) (ha : AtMostInf f neg a) (hb : AtMostInf f (!neg) b) :
    isNaN f (fsub f d a b) = false ∧ (isInf f a = true ∨ isInf f b = true → fsub f d a b = infWord f neg) := by
  have hneg : (unpack f b).neg = .inf neg ∨ ∃ s m, (unpack f b).neg = .fin s m := by
    rcases hb.unpack with h | ⟨s, m, h⟩
    · exact .inl (by rw [h, Fp.neg, Bool.not_not])
    · exact .inr ⟨!s, m, by rw [h, Fp.neg]⟩
  obtain ⟨hn, hinf⟩ := addFp_oneSign (f := f) d ha.unpack hneg
  refine ⟨hn, fun h => hinf (h.imp (fun hi => (unpack_eq_inf_iff f a neg).2 ⟨hi, ha.2 hi⟩) fun hi => ?_)⟩
  rw [(unpack_eq_inf_iff f b (!neg)).2 ⟨hi, hb.2 hi⟩, Fp.neg, Bool.not_not]

end Sys2Proof.Machine
end

section
/-! The statements on BQ and SPM (40_scalar_biquad.md R106 to R110), from the lemmas above. -/

namespace Sys2Proof.Machine

/-- Settles O20: BQ is this expression by definition. -/
theorem recurrenceOperationOrder : Obligations.RecurrenceOperationOrder := fun _ _ _ _ _ => rfl

/-- Settles O21: the three arms of the mux. -/
theorem statePropagationMux : Obligations.StatePropagationMux := fun _ _ _ => ⟨rfl, rfl, rfl⟩

/-- Settles O27: each of the nine operations takes equal operands to equal results. -/
theorem recurrenceAgreesUpToNaN : Obligations.RecurrenceAgreesUpToNaN := by
  intro f d e k l g h x y hk hh hx
  simp only [sameCoeffs, sameHist, Bool.and_eq_true] at hk hh
  obtain ⟨⟨⟨⟨ha0, ha1⟩, ha2⟩, hb1⟩, hb2⟩ := hk
  obtain ⟨⟨⟨hx1, hx2⟩, hy1⟩, hy2⟩ := hh
  refine sameValue_fsub _ _ (sameValue_fsub _ _ (sameValue_fadd _ _ (sameValue_fadd _ _ ?_ ?_) ?_) ?_) ?_
  · exact sameValue_fmul _ _ ha0 hx
  · exact sameValue_fmul _ _ ha1 hx1
  · exact sameValue_fmul _ _ ha2 hx2
  · exact sameValue_fmul _ _ hb1 hy1
  · exact sameValue_fmul _ _ hb2 hy2

/-- Settles O28: BQ by 1 and four +0, a NaN on its way to the output, and infinities of one sign added up. -/
theorem identitySectionAndNaNOperands : Obligations.IdentitySectionAndNaNOperands := by
  refine ⟨fun f d x hfit hn => ?identity, fun f d k h x => isNaN_bq_of_operand, fun f d k h x => isNaN_bq_of_zero_mul_inf,
    fun f d k h x neg => ?infinity⟩
  case identity =>
    simp only [bq, fmul_plusZero_plusZero, fmul_unit (unpack_one f) _ hn, Bool.false_xor, packBits_signOf_magBits f x hfit]
    exact plusZero_terms f _ _ _ _ hfit hn
  case infinity =>
    intro t0 t1 t2 t3 t4 s1 s2 s3 hn hplus hminus hex hs
    simp only [List.forall_mem_cons, List.exists_mem_cons_iff, List.not_mem_nil, false_and, exists_false, or_false,
      IsEmpty.forall_iff, implies_true, and_true] at hn hplus hminus hex hs
    obtain ⟨hn0, hn1, hn2, hn3, hn4⟩ := hn
    obtain ⟨hplus0, hplus1, hplus2⟩ := hplus
    obtain ⟨hminus3, hminus4⟩ := hminus
    obtain ⟨hsign1, hsign2, hsign3⟩ := hs
    have hinf : ∀ {w : Word}, w = infWord f neg → isInf f w = true := fun h => h ▸ isInf_infWord f neg
    obtain ⟨hnan1, hsum1⟩ := fadd_oneSign (Config.freeWord (d + 5)) ⟨hn0, hplus0⟩ ⟨hn1, hplus1⟩
    obtain ⟨hnan2, hsum2⟩ := fadd_oneSign (Config.freeWord (d + 6)) ⟨hnan1, hsign1⟩ ⟨hn2, hplus2⟩
    obtain ⟨hnan3, hsum3⟩ := fsub_oneSign (Config.freeWord (d + 7)) ⟨hnan2, hsign2⟩ ⟨hn3, hminus3⟩
    obtain ⟨-, hsum4⟩ := fsub_oneSign (Config.freeWord (d + 8)) ⟨hnan3, hsign3⟩ ⟨hn4, hminus4⟩
    refine hsum4 ?_
    rcases hex with h | h | h | h | h
    · exact .inl (hinf (hsum3 (.inl (hinf (hsum2 (.inl (hinf (hsum1 (.inl h)))))))))
    · exact .inl (hinf (hsum3 (.inl (hinf (hsum2 (.inl (hinf (hsum1 (.inr h)))))))))
    · exact .inl (hinf (hsum3 (.inl (hinf (hsum2 (.inr h))))))
    · exact .inl (hinf (hsum3 (.inr h)))
    · exact .inr h

/-- Settles O29: five zero products in BQ's order, or a zero by an infinity, or a NaN. -/
theorem unconfiguredSectionOutputsZero : Obligations.UnconfiguredSectionOutputsZero := by
  intro f d h x hx1 hx2 hy1 hy2
  refine ⟨fun hx => ?_, fun hx => ?_⟩
  · have hbq := bq_coeffsZero d hx hx1 hx2 hy1 hy2
    simp only [coeffsZero, plusZero] at hbq
    rw [hbq]
    refine ⟨isZero_zeroWord f _, fun hsigns => ?_, fun hs hs1 hs2 hs3 hs4 => ?_⟩
    · rw [← zeroWord_false f]
      exact congrArg (zeroWord f) (Bool.eq_false_iff.2 fun h => hsigns (by simpa [and_assoc] using h))
    · rw [hs, hs1, hs2, hs3, hs4]
      exact zeroWord_true f
  · rcases hx with hx | hx
    · exact isNaN_bq_of_zero_mul_inf ⟨(0, x), by simp, isZero_zeroWord f false, hx⟩
    · exact isNaN_bq_of_operand ⟨x, by simp, hx⟩

end Sys2Proof.Machine
end

section
/-! SUPPORT. The commands' effects as the statements on SB need them: a command that passes its checks, the histories by the
select of the mux, and what a reset does twice (40_scalar_biquad.md R111, R113 to R131). -/

namespace Sys2Proof.Machine

/-- A command that passes its checks on a core that is not FAULTED has its effect. -/
theorem exec_of_passesChecks {i : Instr} {s : State} (he : s.err = false) (hp : passesChecks i s = true) :
    exec i s = .next (effect i s) := by
  obtain ⟨t, ht⟩ := exec_next i s
  rcases exec_cases ht with ⟨he', _⟩ | ⟨_, hp', _⟩ | ⟨_, _, rfl⟩
  · simp [he] at he'
  · simp [hp] at hp'
  · exact ht

theorem degenerate_eq_false {p : Params} {b0 : Word} (h : p.policy = .propagate ∨ isZero p.fmt b0 = false) :
    degenerate p b0 = false := by
  unfold degenerate
  split
  · rfl
  · simpa [‹p.policy = .fault›] using h

/-! ### The histories by the select of the mux -/

theorem effect_sb_h_eq_spm (i : Instr) (s : State) :
    (effect i s).sb.h = spm (sbSelect i) s.sb.h s.sdata (effect i s).sdata := by
  cases i <;> rfl

theorem laneHist_effect_eq_spm (i : Instr) (s : State) {l : Nat} (hl : l < s.params.n) :
    laneHist (effect i s).eng.h l =
      spm (engSelect i) (laneHist s.eng.h l) (s.vbuf.getD l 0) ((effect i s).vbuf.getD l 0) := by
  cases i with
  | engProcess =>
    have hy : (effect .engProcess s).vbuf.getD l 0 = (processLane s l).y := by simp [effect, hl]
    rw [hy]
    exact laneHist_histFiles (fun j => (processLane s j).h) hl
  | engReset => simp [effect, laneHist, zeros, engSelect, spm, hl]
  | engSetcAll | engSetcLane lane | sbSetc | sbProcess | sbReset => rfl

/-- A command whose own check fails is a coefficient command, and those hold both histories. -/
theorem FailsWith.selects_hold {i : Instr} {s : State} {c : Cause} (h : FailsWith i s c) :
    sbSelect i = .hold ∧ engSelect i = .hold := by
  rcases h with ⟨lane, rfl, _⟩ | ⟨rfl | rfl | ⟨lane, rfl, _⟩, _⟩ <;> exact ⟨rfl, rfl⟩

/-! ### The two resets -/

/-- The effect of a reset twice is its effect once. -/
theorem effect_reset_idempotent {i : Instr} (hi : i = .sbReset ∨ i = .engReset) (s : State) :
    effect i (effect i s) = effect i s := by
  rcases hi with rfl | rfl <;> rfl

theorem passesChecks_reset {i : Instr} (hi : i = .sbReset ∨ i = .engReset) (s : State) : passesChecks i s = true := by
  rcases hi with rfl | rfl <;> rfl

/-! ### The blocks -/

theorem effect_eng_of_sb {i : Instr} (hi : i = .sbSetc ∨ i = .sbProcess ∨ i = .sbReset) (s : State) :
    (effect i s).eng = s.eng := by
  rcases hi with rfl | rfl | rfl <;> rfl

theorem effect_sb_of_eng {i : Instr}
    (hi : i = .engSetcAll ∨ (∃ lane, i = .engSetcLane lane) ∨ i = .engProcess ∨ i = .engReset) (s : State) :
    (effect i s).sb = s.sb := by
  rcases hi with rfl | ⟨lane, rfl⟩ | rfl | rfl <;> rfl

theorem effect_vbuf_of_sb {i : Instr} (hi : i = .sbSetc ∨ i = .sbProcess ∨ i = .sbReset) (s : State) :
    (effect i s).vbuf = s.vbuf := by
  rcases hi with rfl | rfl | rfl <;> rfl

theorem effect_sdata (i : Instr) (s : State) : (effect i s).sdata = s.sdata ∨ i = .sbProcess := by
  cases i with
  | sbProcess => exact .inr rfl
  | engSetcAll | engSetcLane lane | engProcess | engReset | sbSetc | sbReset => exact .inl rfl

/-! ### A NaN in `sb.y1` -/

/-- SB.PROCESS with a NaN in `sb.y1` or SDATA outputs one. -/
theorem isNaN_effect_sbProcess {s : State}
    (h : isNaN s.params.fmt s.sb.h.y1 = true ∨ isNaN s.params.fmt s.sdata = true) :
    isNaN s.params.fmt (effect .sbProcess s).sdata = true :=
  isNaN_bq_of_operand (h.elim (fun h => ⟨s.sb.h.y1, by simp, h⟩) fun h => ⟨s.sdata, by simp, h⟩)

/-- Every command but SB.RESET keeps a NaN in `sb.y1` (40_scalar_biquad.md R131). -/
theorem isNaN_effect_sb_y1 {i : Instr} {s : State} (hi : i ≠ .sbReset) (h : isNaN s.params.fmt s.sb.h.y1 = true) :
    isNaN s.params.fmt (effect i s).sb.h.y1 = true := by
  rcases effect_sb_h i s with hh | rfl | rfl
  · rwa [hh]
  · exact isNaN_effect_sbProcess (.inl h)
  · exact absurd rfl hi

end Sys2Proof.Machine
end

section
/-! The statements on the commands of SB (40_scalar_biquad.md R111 to R133), from the lemmas above. -/

namespace Sys2Proof.Machine

/-- Settles O31: SB.SETC passes its check, and its effect is this state. -/
theorem sbSetcStoresTheNormalizedSet : Obligations.SbSetcStoresTheNormalizedSet := fun s he hb =>
  exec_of_passesChecks (i := .sbSetc) he (by simp [passesChecks, degenerate_eq_false hb])

/-- Settles O32: SB.PROCESS has no check to fail, and its effect is this state. -/
theorem sbProcessFiltersOneSample : Obligations.SbProcessFiltersOneSample := fun _ he =>
  exec_of_passesChecks (i := .sbProcess) he rfl

/-- Settles O33: SB.RESET has no check to fail, and its effect is this state. -/
theorem sbResetClearsTheHistory : Obligations.SbResetClearsTheHistory := fun _ he =>
  exec_of_passesChecks (i := .sbReset) he rfl

/-- Refutes O30: after the inputs -1 and -1 from hard reset, the input -1 gives -0 (log 16). -/
theorem not_unconfiguredSectionReturnsPlusZero : ¬ Obligations.UnconfiguredSectionReturnsPlusZero := by
  intro h
  let afterTwo : State :=
    { State.reset with
      sb := { k := coeffsZero, h := { x1 := 0xBF800000, x2 := 0xBF800000, y1 := 0, y2 := 0 } }
      sdata := 0xBF800000 }
  have houtput : (effect .sbProcess afterTwo).sdata = zeroWord .binary32 true :=
    (bq_coeffsZero (f := .binary32) (h := afterTwo.sb.h) (x := afterTwo.sdata) afterTwo.draws (by decide) (by decide)
      (by decide) (by decide) (by decide)).trans (congrArg _ (by decide))
  have hzero := h afterTwo _ rfl rfl (by decide) (by decide) (by decide) (by decide) (by decide)
    (exec_of_passesChecks (i := .sbProcess) rfl rfl)
  exact absurd (houtput.symm.trans hzero) (by decide)

/-- Settles O45: a fault writes STATUS alone, and an effect the command's own block. -/
theorem blocksActOnDisjointState : Obligations.BlocksActOnDisjointState := by
  intro s t i h
  rcases exec_cases h with ⟨_, rfl⟩ | ⟨_, _, c, _, rfl⟩ | ⟨_, _, rfl⟩
  · exact ⟨fun _ => rfl, fun _ => rfl⟩
  · exact ⟨fun _ => rfl, fun _ => rfl⟩
  · exact ⟨fun hi => effect_eng_of_sb hi s, fun hi => effect_sb_of_eng hi s⟩

/-- Settles O46: only SB.SETC has a check that fails, and a fault writes STATUS alone. -/
theorem sbCommandsFrame : Obligations.SbCommandsFrame := by
  intro s t i hi h
  rcases exec_cases h with ⟨_, rfl⟩ | ⟨_, hp, c, _, rfl⟩ | ⟨_, _, rfl⟩
  · exact ⟨rfl, rfl, rfl, rfl, rfl, rfl, fun _ => ⟨rfl, rfl, rfl⟩, fun _ => rfl, fun _ => rfl⟩
  · have hsetc : i = .sbSetc := by
      rcases hi with rfl | rfl | rfl
      · rfl
      · cases hp
      · cases hp
    exact ⟨rfl, rfl, rfl, rfl, rfl, rfl, fun hne => absurd hsetc hne, fun _ => rfl, fun _ => rfl⟩
  · refine ⟨effect_params i s, effect_eng_of_sb hi s, effect_cdata i s, effect_vbuf_of_sb hi s, effect_inbox i s,
      effect_readouts i s, fun hne => ⟨(effect_sb_k i s).resolve_right hne, effect_err i s, effect_cause i s⟩, fun hsetc => ?_,
      fun hne => (effect_sdata i s).resolve_right hne⟩
    rw [hsetc]
    rfl

/-- Settles O50: the model's own selects give the next histories, and a fault or an ignored word holds them. -/
theorem muxSelectPerCommand : Obligations.MuxSelectPerCommand := by
  refine ⟨fun s t i he _ h => ?_, fun s t w hw h => ?_⟩
  · suffices hspm : t.sb.h = spm (sbSelect i) s.sb.h s.sdata t.sdata ∧ ∀ l, l < s.params.n →
        laneHist t.eng.h l = spm (engSelect i) (laneHist s.eng.h l) (s.vbuf.getD l 0) (t.vbuf.getD l 0) by
      cases i <;> exact hspm
    rcases exec_cases h with ⟨he', _⟩ | ⟨_, _, c, hc, rfl⟩ | ⟨_, _, rfl⟩
    · simp [he] at he'
    · rw [hc.selects_hold.1, hc.selects_hold.2]
      exact ⟨rfl, fun _ _ => rfl⟩
    · exact ⟨effect_sb_h_eq_spm i s, fun l hl => laneHist_effect_eq_spm i s hl⟩
  · rcases issueCommand_cases h with ⟨_, rfl⟩ | ⟨_, _, rfl⟩ | ⟨he, i, hi, _⟩
    · exact ⟨rfl, rfl⟩
    · exact ⟨rfl, rfl⟩
    · rcases hw with hw | ⟨e, hw⟩
      · simp [he] at hw
      · simp [hi] at hw

/-- Settles O53: the effect of a reset twice is its effect once, and a FAULTED core stays as it is. -/
theorem softResetsAreIdempotent : Obligations.SoftResetsAreIdempotent := by
  intro s t i hi h
  rcases exec_cases h with ⟨he, rfl⟩ | ⟨_, hp, _⟩ | ⟨he, _, rfl⟩
  · exact h
  · simp [passesChecks_reset hi] at hp
  · rw [exec_of_passesChecks ((effect_err i s).trans he) (passesChecks_reset hi _), effect_reset_idempotent hi]

/-- Settles O54: BQ passes a NaN on, and of the words the host may issue only SB.RESET's clears `sb.y1`. -/
theorem naNStaysInTheScalarSection : Obligations.NaNStaysInTheScalarSection := by
  refine ⟨fun s t he h hn => ?_, fun s t h hn hr hw => ?_⟩
  · rw [exec_of_passesChecks (i := .sbProcess) he rfl] at h
    cases h
    exact ⟨isNaN_effect_sbProcess hn, isNaN_effect_sbProcess hn⟩
  · rcases step_blocks h hr with ⟨_, hsb⟩ | ⟨w, i, rest, hhead, hd, rfl⟩
    · rwa [hsb]
    · have hi : i ≠ .sbReset := by
        rintro rfl
        rw [hhead, ← encode_of_decode hd] at hw
        exact hw rfl
      exact isNaN_effect_sb_y1 (s := { s with inbox := rest }) hi hn

end Sys2Proof.Machine
end

section
/-! SUPPORT. The commands of ENG lane by lane, with agreement up to NaN sign and payload (40_scalar_biquad.md R102), the frame of
their effects, and that no command reads W (41_parallel_engine.md R141 to R167). -/

namespace Sys2Proof.Machine

/-- A command that leaves ERR 0 has met no fault: the core was not FAULTED, its checks passed, and it had its effect. -/
theorem effect_of_exec_err_false {i : Instr} {s t : State} (h : exec i s = .next t) (ht : t.err = false) :
    s.err = false ∧ passesChecks i s = true ∧ t = effect i s := by
  rcases exec_cases h with ⟨he, rfl⟩ | ⟨_, _, c, _, rfl⟩ | hx
  · simp [he] at ht
  · simp at ht
  · exact hx

/-- The state that a command which passes its checks leaves on a core that is not FAULTED is its effect. -/
theorem eq_effect_of_exec {i : Instr} {s t : State} (he : s.err = false) (hp : passesChecks i s = true)
    (h : exec i s = .next t) : t = effect i s := by
  rw [exec_of_passesChecks he hp] at h
  cases h
  rfl

/-! ### Agreement up to NaN sign and payload -/

theorem sameValue_refl (f : Fmt) (a : Word) : sameValue f a a = true := by simp [sameValue]

theorem sameCoeffs_refl (f : Fmt) (k : Coeffs) : sameCoeffs f k k = true := by simp [sameCoeffs, sameValue_refl]

theorem sameHist_refl (f : Fmt) (h : Hist) : sameHist f h h = true := by simp [sameHist, sameValue_refl]

/-- NORM of one raw set gives agreeing sets whatever it draws (41_parallel_engine.md R143). -/
theorem sameCoeffs_quotients (f : Fmt) (d e : Nat) (r : Raw) :
    sameCoeffs f (quotients f d r) (quotients f e r) = true := by
  simp [sameCoeffs, quotients, sameValue_fdiv, sameValue_refl]

/-- The mux keeps agreement: it moves values and makes none. -/
theorem sameHist_spm {f : Fmt} {g h : Hist} {x x' y y' : Word} (sel : SpmSel) (hh : sameHist f g h = true)
    (hx : sameValue f x x' = true) (hy : sameValue f y y' = true) :
    sameHist f (spm sel g x y) (spm sel h x' y') = true := by
  cases sel with
  | hold => exact hh
  | shift =>
    simp only [sameHist, Bool.and_eq_true] at hh
    obtain ⟨⟨⟨hx1, _⟩, hy1⟩, _⟩ := hh
    simp [sameHist, spm, hx, hx1, hy, hy1]
  | clear => exact sameHist_refl f histZero

/-! ### One lane's coefficients and one lane's step -/

/-- Lane `i`'s coefficients after they are written. -/
theorem laneCoeffs_setLane_self {s : State} {i : Nat} (k : Coeffs) (hs : s.LanesFull) (hi : i < s.params.n) :
    laneCoeffs (setLane s.eng.k i k) i = k := by
  obtain ⟨⟨ha0, ha1, ha2, hb1, hb2⟩, _⟩ := hs
  simp [laneCoeffs, setLane, ha0, ha1, ha2, hb1, hb2, hi]

/-- SB.SETC stores a set that agrees with a lane's where that lane holds NORM of the same CDATA (41_parallel_engine.md R143). -/
theorem effect_sbSetc_agrees {s t : State} {i : Nat} (hparams : t.params = s.params) (hcdata : t.cdata = s.cdata)
    (hlane : laneCoeffs t.eng.k i = quotients s.params.fmt s.draws (rawOperand s)) :
    sameCoeffs s.params.fmt (laneCoeffs (effect .sbSetc t).eng.k i) (effect .sbSetc t).sb.k = true := by
  have hraw : rawOperand t = rawOperand s := by simp [rawOperand, readPort, hcdata]
  have hsb : (effect .sbSetc t).sb.k = quotients s.params.fmt t.draws (rawOperand s) := by
    rw [← hparams, ← hraw]
    rfl
  rw [effect_eng_of_sb (.inl rfl), hlane, hsb]
  exact sameCoeffs_quotients _ _ _ _

/-- The output of ENG.PROCESS in one lane (41_parallel_engine.md R151). -/
theorem effect_engProcess_vbuf (s : State) {i : Nat} (hi : i < s.params.n) :
    (effect .engProcess s).vbuf.getD i 0 =
      bq s.params.fmt (laneDraw s i) (laneCoeffs s.eng.k i) (laneHist s.eng.h i) (s.vbuf.getD i 0) := by
  simp [effect, hi, processLane, laneSample, readPort, plusZero]

/-- A lane's output and next history agree with those of any recurrence on agreeing coefficients, history and input, another
lane's or SB's, whatever it draws (41_parallel_engine.md R153, R165). -/
theorem effect_engProcess_agrees {s : State} {i : Nat} {k : Coeffs} {h : Hist} {x : Word} (d : Nat) (hi : i < s.params.n)
    (hk : sameCoeffs s.params.fmt (laneCoeffs s.eng.k i) k = true)
    (hh : sameHist s.params.fmt (laneHist s.eng.h i) h = true)
    (hx : sameValue s.params.fmt (s.vbuf.getD i 0) x = true) :
    sameValue s.params.fmt ((effect .engProcess s).vbuf.getD i 0) (bq s.params.fmt d k h x) = true ∧
    sameHist s.params.fmt (laneHist (effect .engProcess s).eng.h i) (spm .shift h x (bq s.params.fmt d k h x)) = true := by
  have hy : sameValue s.params.fmt ((effect .engProcess s).vbuf.getD i 0) (bq s.params.fmt d k h x) = true := by
    rw [effect_engProcess_vbuf s hi]
    exact recurrenceAgreesUpToNaN _ _ _ _ _ _ _ _ _ hk hh hx
  rw [laneHist_effect_eq_spm .engProcess s hi]
  exact ⟨hy, sameHist_spm .shift hh hx hy⟩

/-- Two lanes, of one engine or of two of one format, that agree keep in agreement under ENG.PROCESS
(41_parallel_engine.md R153, R166). -/
theorem effect_engProcess_lanes_agree {s s' : State} {i j : Nat} (hf : s'.params.fmt = s.params.fmt)
    (hi : i < s.params.n) (hj : j < s'.params.n)
    (hk : sameCoeffs s.params.fmt (laneCoeffs s.eng.k i) (laneCoeffs s'.eng.k j) = true)
    (hh : sameHist s.params.fmt (laneHist s.eng.h i) (laneHist s'.eng.h j) = true)
    (hx : sameValue s.params.fmt (s.vbuf.getD i 0) (s'.vbuf.getD j 0) = true) :
    sameValue s.params.fmt ((effect .engProcess s).vbuf.getD i 0) ((effect .engProcess s').vbuf.getD j 0) = true ∧
    sameHist s.params.fmt (laneHist (effect .engProcess s).eng.h i) (laneHist (effect .engProcess s').eng.h j) = true := by
  rw [laneHist_effect_eq_spm .engProcess s' hj, effect_engProcess_vbuf s' hj, hf]
  exact effect_engProcess_agrees (laneDraw s' j) hi hk hh hx

/-! ### The frame of the ENG commands -/

theorem effect_vbuf (i : Instr) (s : State) : (effect i s).vbuf = s.vbuf ∨ i = .engProcess := by
  cases i with
  | engProcess => exact .inr rfl
  | engSetcAll | engSetcLane lane | engReset | sbSetc | sbProcess | sbReset => exact .inl rfl

/-- ENG.SETC.LANE changes no other lane's coefficients, and no lane's history, SCR or VBUF element
(41_parallel_engine.md R147). -/
theorem exec_engSetcLane_other {s t : State} {i j : Nat} (h : exec (.engSetcLane i) s = .next t) (hj : j ≠ i) :
    laneCoeffs t.eng.k j = laneCoeffs s.eng.k j ∧ t.eng.h = s.eng.h ∧ t.eng.scr = s.eng.scr ∧ t.vbuf = s.vbuf := by
  rcases exec_cases h with ⟨_, rfl⟩ | ⟨_, _, c, _, rfl⟩ | ⟨_, _, rfl⟩
  · exact ⟨rfl, rfl, rfl, rfl⟩
  · exact ⟨rfl, rfl, rfl, rfl⟩
  · exact ⟨laneCoeffs_setLane_ne s.eng.k _ hj, rfl, rfl, rfl⟩

/-! ### W is read by the partition alone (41_parallel_engine.md R161) -/

theorem effect_withWidth (i : Instr) (s : State) (w : Nat) :
    effect i { s with params := { s.params with w := w } } =
      { effect i s with params := { (effect i s).params with w := w } } := by
  cases i <;> rfl

theorem passesChecks_withWidth (i : Instr) (s : State) (w : Nat) :
    passesChecks i { s with params := { s.params with w := w } } = passesChecks i s := by
  cases i <;> rfl

/-- The checks' cause does not depend on W, and a command has one (60_exceptions.md R188). -/
theorem FailsWith.cause_unique_withWidth {i : Instr} {s : State} {c c' : Cause} {w : Nat} (h : FailsWith i s c)
    (h' : FailsWith i { s with params := { s.params with w := w } } c') : c' = c := by
  rcases h with ⟨lane, rfl, hl, rfl⟩ | ⟨hi, _, rfl⟩ <;>
    rcases h' with ⟨lane', hi', hl', rfl⟩ | ⟨hi', _, rfl⟩
  · rfl
  · have hlt : lane < s.params.n := by simpa using hi'
    exact absurd hl (Nat.not_le.2 hlt)
  · have hlt : lane' < s.params.n := by simpa [hi'] using hi
    exact absurd hl' (Nat.not_le.2 hlt)
  · rfl

end Sys2Proof.Machine
end

section
/-! The statements on the commands of ENG (41_parallel_engine.md R141 to R167), from the lemmas above. -/

namespace Sys2Proof.Machine

/-- Settles O34: ENG.SETC.ALL passes its check, and its effect is this state. -/
theorem engSetcAllStoresTheSetInEveryLane : Obligations.EngSetcAllStoresTheSetInEveryLane := fun _ he hb =>
  exec_of_passesChecks (i := .engSetcAll) he (by simp [passesChecks, degenerate_eq_false hb])

/-- Settles O35: ENG.SETC.LANE passes both its checks, and its effect is this state. -/
theorem engSetcLaneStoresTheSetInOneLane : Obligations.EngSetcLaneStoresTheSetInOneLane := fun _ lane he hl hb =>
  exec_of_passesChecks (i := .engSetcLane lane) he (by simp [passesChecks, hl, degenerate_eq_false hb])

/-- Settles O36: the batches and the remainder are the lanes one by one, as `effect` has them, and a lane's step is BQ and SHIFT. -/
theorem engProcessIsTheScalarRecurrenceInEveryLane : Obligations.EngProcessIsTheScalarRecurrenceInEveryLane := by
  intro s he
  rw [exec_of_passesChecks (i := .engProcess) he rfl]
  simp only [effect, histFiles, List.map_map]
  rfl

/-- Settles O37: the batches and the remainder are the lanes one by one, as `effect` has them, and each is cleared. -/
theorem engResetClearsEveryLane : Obligations.EngResetClearsEveryLane := fun _ he =>
  exec_of_passesChecks (i := .engReset) he rfl

/-- Settles O47: of the four only the coefficient commands have a check that fails, and a fault writes STATUS alone. -/
theorem engCommandsFrame : Obligations.EngCommandsFrame := by
  intro s t i hi h
  have hparams := exec_params h
  have hsb := (blocksActOnDisjointState s t i h).2 hi
  obtain ⟨hinbox, hreadouts⟩ := exec_host h
  rcases exec_cases h with ⟨_, rfl⟩ | ⟨_, hp, c, _, rfl⟩ | ⟨_, _, rfl⟩
  · exact ⟨hparams, hsb, rfl, rfl, hinbox, hreadouts, fun _ => ⟨rfl, rfl, rfl, rfl⟩, fun _ => ⟨rfl, rfl⟩, fun _ => rfl⟩
  · refine ⟨hparams, hsb, rfl, rfl, hinbox, hreadouts, fun hnocheck => ?_, fun _ => ⟨rfl, rfl⟩, fun _ => rfl⟩
    rcases hnocheck with rfl | rfl <;> cases hp
  · refine ⟨hparams, hsb, (effect_sdata i s).resolve_right ?_, effect_cdata i s, hinbox, hreadouts, ?_, ?_,
      (effect_vbuf i s).resolve_right⟩
    · rintro rfl
      simp at hi
    · rintro (rfl | rfl) <;> exact ⟨rfl, rfl, rfl, rfl⟩
    · rintro (rfl | ⟨lane, rfl⟩) <;> exact ⟨rfl, rfl⟩

/-- Settles O55: ENG.SETC.ALL evaluates NORM once and stores its set in every lane. -/
theorem setcAllGivesEveryLaneTheSamePatterns : Obligations.SetcAllGivesEveryLaneTheSamePatterns := by
  intro s t _ h ht i j hi hj
  obtain ⟨_, hp, rfl⟩ := effect_of_exec_err_false h ht
  have hstored : ∀ l, l < s.params.n →
      laneCoeffs (effect .engSetcAll s).eng.k l = quotients s.params.fmt s.draws (rawOperand s) :=
    fun l hl => laneCoeffs_broadcast _ hl
  have hb0 : degenerate s.params (rawOperand s).b0 = false := by
    simpa [passesChecks, rawOperand, readPort] using hp
  rw [hstored i hi, hstored j hj]
  exact ⟨rfl, by simp [normCoeffs, hb0]⟩

/-- Settles O56: both commands store NORM of the one raw set, with draws of their own. -/
theorem coefficientCommandsStoreTheSameSet : Obligations.CoefficientCommandsStoreTheSameSet := by
  intro s t u _ hfull hsb hu
  obtain ⟨ht, _, rfl⟩ := effect_of_exec_err_false hsb hu
  refine ⟨fun heng i hi => ?_, fun i hi heng => ?_⟩
  · obtain ⟨_, _, rfl⟩ := effect_of_exec_err_false heng ht
    exact effect_sbSetc_agrees rfl rfl (laneCoeffs_broadcast _ hi)
  · obtain ⟨_, _, rfl⟩ := effect_of_exec_err_false heng ht
    exact effect_sbSetc_agrees rfl rfl (laneCoeffs_setLane_self _ hfull hi)

/-- Settles O57: the lane's operands are what they were, and ENG.PROCESS gives a lane what its operands give. -/
theorem laneConfigurationLeavesOtherLanes : Obligations.LaneConfigurationLeavesOtherLanes := by
  intro s t i j h hj
  obtain ⟨hk, hh, hscr, hvbuf⟩ := exec_engSetcLane_other h hj
  refine ⟨⟨hk, by rw [hh], by rw [hscr], by rw [hvbuf]⟩, fun u v hjn ht hu hv => ?_⟩
  have hs := (effect_of_exec_err_false h ht).1
  have hparams := exec_params h
  cases eq_effect_of_exec hs rfl hu
  cases eq_effect_of_exec ht rfl hv
  refine effect_engProcess_lanes_agree (by rw [hparams]) hjn (by rwa [hparams]) ?_ ?_ ?_
  · rw [hk]
    exact sameCoeffs_refl _ _
  · rw [hh]
    exact sameHist_refl _ _
  · rw [hvbuf]
    exact sameValue_refl _ _

/-- Settles O58: ENG.PROCESS is BQ and SHIFT on each lane's own operands. -/
theorem laneResultDependsOnItsLaneAlone : Obligations.LaneResultDependsOnItsLaneAlone := by
  intro s s' t t' i j he he' hf hi hj hk hh hx h h'
  cases eq_effect_of_exec he rfl h
  cases eq_effect_of_exec he' rfl h'
  exact effect_engProcess_lanes_agree hf hi hj hk hh hx

/-- Settles O59: the three cases of a command, none of which reads W. -/
theorem vectorWidthIsNotObservable : Obligations.VectorWidthIsNotObservable := by
  intro s t i w h
  obtain ⟨t', h'⟩ := exec_next i { s with params := { s.params with w := w } }
  rw [h']
  rcases exec_cases h with ⟨he, rfl⟩ | ⟨he, hp, c, hc, rfl⟩ | ⟨he, hp, rfl⟩
  · rw [exec_faulted (by exact he)] at h'
    cases h'
    rfl
  · rcases exec_cases h' with ⟨he', _⟩ | ⟨_, _, c', hc', rfl⟩ | ⟨_, hp', _⟩
    · simp [he] at he'
    · rw [hc.cause_unique_withWidth hc']
    · simp [passesChecks_withWidth, hp] at hp'
  · rw [eq_effect_of_exec (by exact he) ((passesChecks_withWidth i s w).trans hp) h', effect_withWidth]

/-- Settles O60: SB.PROCESS is BQ and SHIFT on SB's operands, which ENG.PROCESS leaves, as ENG's on lane `i`'s. -/
theorem engineLaneKeepsParityWithTheScalarSection : Obligations.EngineLaneKeepsParityWithTheScalarSection := by
  intro s t u i he hi ⟨hk, hh⟩ hx h h'
  cases eq_effect_of_exec he rfl h
  cases eq_effect_of_exec (by exact he) rfl h'
  obtain ⟨hy, hhist⟩ := effect_engProcess_agrees (effect .engProcess s).draws hi hk hh hx
  exact ⟨hy, hk, hhist⟩

end Sys2Proof.Machine
end

section
/-! SUPPORT. The checks of a command and what each reports, the status after a step, and the steps that are refused
(60_exceptions.md R180 to R200). -/

namespace Sys2Proof.Machine

/-! ### A zero b0 under FAULT -/

/-- The check of NORM fails exactly under FAULT on a zero b0 (60_exceptions.md R183). -/
theorem degenerate_iff (p : Params) (b0 : Word) :
    degenerate p b0 = true ↔ p.policy = .fault ∧ isZero p.fmt b0 = true := by
  unfold degenerate
  split <;> simp [*]

/-- Of the FLEN-bit words exactly +0 and -0 are zeros (00_scope.md R16). -/
theorem isZero_iff_of_fits {f : Fmt} {w : Word} (hfit : fitsFmt f w = true) :
    isZero f w = true ↔ w = 0 ∨ w = BitVec.ofNat 64 f.signWeight := by
  rw [← zeroWord_false f, ← zeroWord_true f]
  constructor
  · intro hz
    have hw := eq_zeroWord_of_isZero hfit hz
    cases hs : signOf f w <;> rw [hs] at hw
    · exact .inl hw
    · exact .inr hw
  · rintro (rfl | rfl) <;> exact isZero_zeroWord f _

/-! ### The command's own checks -/

theorem failsWith_invalidArgument_iff (i : Instr) (s : State) :
    FailsWith i s .invalidArgument ↔ i.opc = 0x02 ∧ s.params.n ≤ i.laneOperand := by
  cases i <;> simp [FailsWith, Instr.opc, Instr.laneOperand]

/-- The coefficient commands by name, a lane operand in range. -/
theorem failsWith_degenerateCoefficient_iff (i : Instr) (s : State) :
    FailsWith i s .degenerateCoefficient ↔
      (i = .sbSetc ∨ i = .engSetcAll ∨ ∃ lane, i = .engSetcLane lane ∧ lane < s.params.n) ∧ s.params.policy = .fault ∧
        isZero s.params.fmt s.cdata.c3 = true := by
  rw [← degenerate_iff]
  cases i <;> simp [FailsWith]

/-- The coefficient commands by OPC (30_encoding.md R76). -/
theorem failsWith_degenerateCoefficient_iff_opc (i : Instr) (s : State) :
    FailsWith i s .degenerateCoefficient ↔
      ¬ (i.opc = 0x02 ∧ s.params.n ≤ i.laneOperand) ∧ i.opc ∈ [0x01, 0x02, 0x11] ∧ s.params.policy = .fault ∧
        isZero s.params.fmt s.cdata.c3 = true := by
  rw [← degenerate_iff]
  cases i <;> simp [FailsWith, Instr.opc, Instr.laneOperand]

theorem FailsWith.cause_cases {i : Instr} {s : State} {c : Cause} (h : FailsWith i s c) :
    c = .invalidArgument ∨ c = .degenerateCoefficient := by
  rcases h with ⟨_, _, _, rfl⟩ | ⟨_, _, rfl⟩
  · exact .inl rfl
  · exact .inr rfl

theorem FailsWith.passesChecks_eq_false {i : Instr} {s : State} {c : Cause} (h : FailsWith i s c) :
    passesChecks i s = false := by
  rcases h with ⟨lane, rfl, hl, _⟩ | ⟨rfl | rfl | ⟨lane, rfl, _⟩, hd, _⟩
  · simp [passesChecks, Nat.not_lt.2 hl]
  all_goals simp [passesChecks, hd]

/-- One command reports at most one cause (60_exceptions.md R188). -/
theorem FailsWith.cause_unique {i : Instr} {s : State} {c c' : Cause} (h : FailsWith i s c) (h' : FailsWith i s c') :
    c' = c :=
  h.cause_unique_withWidth (w := s.params.w) h'

/-- A command whose check fails writes STATUS and nothing else (60_exceptions.md R186). -/
theorem exec_of_failsWith {i : Instr} {s : State} {c : Cause} (he : s.err = false) (hf : FailsWith i s c) :
    exec i s = .next { s with err := true, cause := c } := by
  obtain ⟨t, ht⟩ := exec_next i s
  rcases exec_cases ht with ⟨he', _⟩ | ⟨_, _, c', hf', rfl⟩ | ⟨_, hp, _⟩
  · simp [he] at he'
  · rw [ht, hf.cause_unique hf']
  · simp [hf.passesChecks_eq_false] at hp

/-- A command leaves a cause that was not there before exactly when the check that reports it fails. -/
theorem cause_of_exec_eq_iff {i : Instr} {s t : State} {c : Cause} (he : s.err = false) (hc : s.cause ≠ c)
    (h : exec i s = .next t) : t.cause = c ↔ FailsWith i s c := by
  constructor
  · rintro rfl
    rcases exec_cases h with ⟨he', _⟩ | ⟨_, _, c', hf, rfl⟩ | ⟨_, _, rfl⟩
    · simp [he] at he'
    · exact hf
    · exact absurd (effect_cause i s).symm hc
  · intro hf
    rw [exec_of_failsWith he hf] at h
    cases h
    rfl

/-- A command none of whose checks fails leaves ERR and CAUSE as they are. -/
theorem status_of_exec_of_no_failure {i : Instr} {s t : State} (he : s.err = false) (hf : ∀ c, ¬ FailsWith i s c)
    (h : exec i s = .next t) : t.err = false ∧ t.cause = s.cause := by
  rcases exec_cases h with ⟨he', _⟩ | ⟨_, _, c, hc, _⟩ | ⟨_, _, rfl⟩
  · simp [he] at he'
  · exact absurd hc (hf c)
  · exact ⟨(effect_err i s).trans he, effect_cause i s⟩

/-- The command's own checks in their order, and what the first that fails writes (60_exceptions.md R188). -/
theorem exec_checks {i : Instr} {s t : State} (he : s.err = false) (h : exec i s = .next t) :
    if i.opc = 0x02 ∧ s.params.n ≤ i.laneOperand then t = { s with err := true, cause := .invalidArgument }
    else if i.opc ∈ [0x01, 0x02, 0x11] ∧ s.params.policy = .fault ∧ isZero s.params.fmt s.cdata.c3 = true then
      t = { s with err := true, cause := .degenerateCoefficient }
    else t.err = false ∧ t.cause = s.cause := by
  have hfault : ∀ c, FailsWith i s c → t = { s with err := true, cause := c } := fun c hf => by
    rw [exec_of_failsWith he hf] at h
    cases h
    rfl
  split_ifs with harg hzero
  · exact hfault _ ((failsWith_invalidArgument_iff i s).2 harg)
  · exact hfault _ ((failsWith_degenerateCoefficient_iff_opc i s).2 ⟨harg, hzero⟩)
  · refine status_of_exec_of_no_failure he (fun c hf => ?_) h
    rcases hf.cause_cases with rfl | rfl
    · exact harg ((failsWith_invalidArgument_iff i s).1 hf)
    · exact hzero ((failsWith_degenerateCoefficient_iff_opc i s).1 hf).2

/-- A word that fails none of the decoder's checks decodes (30_encoding.md R78). -/
theorem exists_decode {w : CmdWord} (hopc : ¬ opcField w ∉ [0x01, 0x02, 0x03, 0x04, 0x11, 0x12, 0x13])
    (hrsv : ¬ rsvField w ≠ 0) (hlane : ¬ (opcField w ≠ 0x02 ∧ laneField w ≠ 0)) : ∃ i, decode w = .ok i := by
  cases hd : decode w with
  | ok i => exact ⟨i, rfl⟩
  | error e =>
    rcases (decode_eq_error_iff w).1 ⟨e, hd⟩ with h | h | h
    · exact absurd h hopc
    · exact absurd h hrsv
    · exact absurd h hlane

/-! ### The status after a word and after a step -/

/-- A FAULTED core consumes a command word and does nothing (60_exceptions.md R187). -/
theorem issueCommand_faulted {s : State} (he : s.err = true) (w : CmdWord) : issueCommand w s = .next s := by
  simp [issueCommand, he]

/-- A step keeps ERR and CAUSE, issues a command word, or is a hard reset. -/
theorem step_status {s t : State} (h : step s = .next t) :
    (t.err = s.err ∧ t.cause = s.cause) ∨
    (∃ w rest, s.inbox = .command w :: rest ∧ issueCommand w { s with inbox := rest } = .next t) ∨
    (s.inbox.head? = some .hardReset ∧ t.err = false ∧ t.cause = .none) := by
  obtain ⟨_, ⟨_, rfl⟩ | ⟨a, rest, hi, ha⟩⟩ := step_cases h
  · exact .inl ⟨rfl, rfl⟩
  · rcases perform_cases ha with ⟨w, rfl, hw⟩ | ⟨p, v, _, _, _, rfl⟩ | ⟨p, _, _, rfl⟩ | ⟨k, _, rfl⟩ | ⟨rfl, rfl⟩
    · exact .inr (.inl ⟨w, rest, hi, hw⟩)
    · exact .inl ⟨writePort_err .., writePort_cause ..⟩
    · exact .inl ⟨rfl, rfl⟩
    · exact .inl ⟨rfl, rfl⟩
    · exact .inr (.inr ⟨by rw [hi]; rfl, rfl, rfl⟩)

/-- No step but hard reset leaves the FAULTED condition or changes its cause (60_exceptions.md R187). -/
theorem step_faulted {s t : State} (he : s.err = true) (h : step s = .next t) (hr : s.inbox.head? ≠ some .hardReset) :
    t.err = true ∧ t.cause = s.cause := by
  rcases step_status h with ⟨herr, hcause⟩ | ⟨w, rest, _, hw⟩ | ⟨hreset, _⟩
  · exact ⟨herr.trans he, hcause⟩
  · rw [issueCommand_faulted (by exact he)] at hw
    cases hw
    exact ⟨he, rfl⟩
  · exact absurd hreset hr

/-! ### Clean runs -/

/-- A command word that raises no fault decodes to a command that passes its checks. -/
theorem decode_of_cleanNext {s : State} {w : CmdWord} {rest : List HostAction} (hc : cleanNext s = true)
    (hi : s.inbox = .command w :: rest) : ∃ i, decode w = .ok i ∧ passesChecks i s = true := by
  simp only [cleanNext, hi] at hc
  cases hd : decode w with
  | ok i => exact ⟨i, rfl, by simpa only [hd] using hc⟩
  | error e => simp [hd] at hc

theorem passesChecks_withInbox (i : Instr) (s : State) (rest : List HostAction) :
    passesChecks i { s with inbox := rest } = passesChecks i s := by
  cases i <;> rfl

/-- A clean step raises no fault (60_exceptions.md R200). -/
theorem step_clean {s t : State} (he : s.err = false) (hn : s.cause = .none) (hc : cleanNext s = true)
    (h : step s = .next t) : t.err = false ∧ t.cause = .none := by
  rcases step_status h with ⟨herr, hcause⟩ | ⟨w, rest, hi, hw⟩ | ⟨_, hreset⟩
  · exact ⟨herr.trans he, hcause.trans hn⟩
  · obtain ⟨i, hd, hp⟩ := decode_of_cleanNext hc hi
    rw [issueCommand_of_decode hd] at hw
    cases eq_effect_of_exec (by exact he) ((passesChecks_withInbox i s rest).trans hp) hw
    exact ⟨(effect_err ..).trans he, (effect_cause ..).trans hn⟩
  · exact hreset

/-- A clean run raises no fault, by induction on its steps. -/
theorem run_clean (k : Nat) {s t : State} (he : s.err = false) (hn : s.cause = .none) (hc : cleanRun k s)
    (h : Host.Core.run Sys2Proof.core k s = .next t) : t.err = false ∧ t.cause = .none := by
  induction k generalizing s with
  | zero => cases h; exact ⟨he, hn⟩
  | succ k ih =>
    obtain ⟨u, hu, hr⟩ := core_run_cases h
    obtain ⟨hnext, hlater⟩ := hc
    obtain ⟨he', hn'⟩ := step_clean he hn hnext hu
    exact ih he' hn' (hlater u hu) hr

/-- STATUS without a fault is its UNIFORM bit (10_state.md R33). -/
theorem statusWord_of_no_fault {s : State} (he : s.err = false) (hn : s.cause = .none) :
    statusWord s = if s.eng.uniform = true then 0x00000100 else 0x00000000 := by
  unfold statusWord
  rw [he, hn]
  cases s.eng.uniform <;> rfl

/-! ### Configurations and host moves that do not exist -/

theorem params_legal_iff (p : Params) : p.legal = true ↔ 1 ≤ p.n ∧ p.n ≤ 65536 ∧ 1 ≤ p.w := by
  simp [Params.legal, and_assoc]

theorem step_of_inbox_cons {s : State} {a : HostAction} {rest : List HostAction} (hl : s.params.legal = true)
    (hi : s.inbox = a :: rest) : step s = perform a { s with inbox := rest } := by
  simp only [step, hl, if_true, serveHost, hi]

theorem hostWrite_noSuchPort {s : State} {p : Port} (hp : portExists s p = false) (v : Word) :
    hostWrite p v s = .refused (.noSuchPort p) := by
  simp [hostWrite, hp]

theorem hostRead_noSuchPort {s : State} {p : Port} (hp : portExists s p = false) :
    hostRead p s = .refused (.noSuchPort p) := by
  simp [hostRead, hp]

theorem hostWrite_mixedWidth {s : State} {p : Port} {v : Word} (hp : portExists s p = true)
    (hv : 2 ^ s.params.fmt.flen ≤ v.toNat) : hostWrite p v s = .refused (.mixedWidth p) := by
  have hfit : fitsFmt s.params.fmt v = false := decide_eq_false (Nat.not_lt.2 hv)
  simp [hostWrite, hp, hfit]

end Sys2Proof.Machine
end

section
/-! The statements on faults and refusals (60_exceptions.md), from the lemmas above. -/

namespace Sys2Proof.Machine

/-- Settles O40: the cause is new, so the check of b0 failed, and a zero of FLEN bits is one of two words. -/
theorem degenerateCoefficientExactly : Obligations.DegenerateCoefficientExactly := by
  intro s t i he hn hfit h
  have hiff := cause_of_exec_eq_iff (c := .degenerateCoefficient) he (by rw [hn]; decide) h
  refine ⟨?_, fun hc => ?_⟩
  · rw [hiff, failsWith_degenerateCoefficient_iff, isZero_iff_of_fits hfit]
  · rw [exec_of_failsWith he (hiff.1 hc)] at h
    cases h
    rfl

/-- Settles O41: the decoder's three checks, then those of the command the word's fields name. -/
theorem checksRunInOrder : Obligations.ChecksRunInOrder := by
  intro w s
  cases he : s.err with
  | true => exact ⟨s, issueCommand_faulted he w, by simp⟩
  | false =>
    obtain ⟨t, ht⟩ := issueCommand_next w s
    have hillegal : (∃ e, decode w = .error e) → t = { s with err := true, cause := .illegalCommand } := fun hd => by
      rw [issueCommand_of_error hd he] at ht
      cases ht
      rfl
    refine ⟨t, ht, ?_⟩
    rw [if_neg Bool.false_ne_true]
    split
    · exact hillegal ((decode_eq_error_iff w).2 (.inl ‹_›))
    · split
      · exact hillegal ((decode_eq_error_iff w).2 (.inr (.inl ‹_›)))
      · split
        · exact hillegal ((decode_eq_error_iff w).2 (.inr (.inr ‹_›)))
        · obtain ⟨i, hd⟩ := exists_decode ‹_› ‹_› ‹_›
          obtain ⟨hopc, hlane⟩ := fields_of_decode hd
          rw [issueCommand_of_decode hd] at ht
          rw [hopc, hlane]
          exact exec_checks he ht

/-- Settles O42: every access and every step on a FAULTED core, case by case. -/
theorem faultedCoreExecutesNothing : Obligations.FaultedCoreExecutesNothing := by
  intro s he
  refine ⟨issueCommand_faulted he, exec_faulted he, fun p v hp hv => hostWrite_eq_next_iff.2 ⟨hp, hv, rfl⟩,
    fun p hp => hostRead_eq_next_iff.2 ⟨hp, rfl⟩, fun _ => rfl, fun t => step_faulted he, fun t h hr => ?_⟩
  obtain ⟨rest, hi⟩ := List.head?_eq_some_iff.1 hr
  cases perform_of_step hi h
  exact ⟨rfl, rfl⟩

/-- Settles O43: of what a command word can do only the fault primitive sets ERR. -/
theorem faultsArePrecise : Obligations.FaultsArePrecise := by
  intro w s t he h ht
  refine ⟨?_, issueCommand_faulted ht⟩
  rcases issueCommand_effect h with rfl | ⟨c, _, rfl⟩ | ⟨i, _, _, rfl⟩
  · simp [he] at ht
  · rfl
  · simp [he] at ht

/-- Settles O44: every step of the run is clean, and STATUS without a fault is UNIFORM. -/
theorem cleanRunsRaiseNoFault : Obligations.CleanRunsRaiseNoFault := by
  intro k s t he hn hc h
  obtain ⟨he', hn'⟩ := run_clean k he hn hc h
  exact ⟨he', hn', statusWord_of_no_fault he' hn'⟩

/-- Settles O8: construction and step ask whether the parameter set is legal. -/
theorem illegalConfigurationIsRefused : Obligations.IllegalConfigurationIsRefused := by
  refine ⟨fun p hp => ?_, fun p hn hn' hw d => ?_, fun f => ?_⟩
  · have hl : ¬ p.legal = true := by
      rw [params_legal_iff]
      omega
    exact ⟨fun d => if_neg hl, fun s hs => if_neg (hs ▸ hl)⟩
  · exact if_pos ((params_legal_iff p).2 ⟨hn, hn', hw⟩)
  · cases f with
    | binary32 => exact .inl rfl
    | binary64 => exact .inr rfl

/-- Settles O9: the step serves the host's next action, and the two port accesses check the element and the width. -/
theorem idleAndRefusedHostMoves : Obligations.IdleAndRefusedHostMoves := by
  refine ⟨fun s hl hi => by simp [step, hl, serveHost, hi], fun s p v rest hl hp hi => ?_, fun s p v rest hl hp hv hi => ?_⟩
  · have hp' : portExists { s with inbox := rest } p = false := (portExists_congr rfl p).trans hp
    rcases hi with hi | hi <;> rw [step_of_inbox_cons hl hi]
    · exact hostWrite_noSuchPort hp' v
    · exact hostRead_noSuchPort hp'
  · rw [step_of_inbox_cons hl hi]
    exact hostWrite_mixedWidth ((portExists_congr rfl p).trans hp) hv

/-- Settles O39: the lane check comes before that of b0. -/
theorem outOfRangeLaneFaults : Obligations.OutOfRangeLaneFaults := fun _ lane he hl =>
  exec_of_failsWith he (.inl ⟨lane, rfl, hl, rfl⟩)

end Sys2Proof.Machine
end
